-- ==== Sys2Proof/Word.lean ====
section
/-! DEFINITION. The words of the block: a time value, a byte, a command word (10_state.md R21, 30_encoding.md R70). -/

namespace Sys2Proof

/-- A time delta, a timestamp, a FIFO slot or a debug counter. W_T is at most 32 (00_scope.md R8), so a value of
W_T bits stands in a 32-bit word and `Fits` says that it needs no more than W_T of them (log entry 9). -/
abbrev Word := BitVec 32

/-- A packet byte, the preamble counter or the packet's bit count (10_state.md R29 to R31). -/
abbrev Byte := BitVec 8

/-- A command word (30_encoding.md R70). -/
abbrev CommandWord := BitVec 40

/-- `v` is a value of `n` bits. -/
abbrev Fits (n : Nat) (v : Word) : Prop := v.toNat < 2 ^ n

end Sys2Proof
end

