-- ==== Sys2Proof/Syntax.lean ====
section
/-! DEFINITION. The operations of the block, the agents that issue them, and what an agent does next
(30_encoding.md R73, 10_state.md R20, 43_control.md R174). -/

namespace Sys2Proof

/-- Who presents an operation (10_state.md R20). The handler only receives, so it is no constructor. -/
inductive Agent where
  /-- the interrupt context -/
  | producer
  /-- the main loop -/
  | consumer
  /-- initialization and application code -/
  | host
  deriving DecidableEq, Repr, Inhabited

/-- What an agent does next: present a command word (30_encoding.md R70), or, for the consumer, perform the next
operation of SERVICE (43_control.md R174). -/
inductive Event where
  | command (agent : Agent) (word : CommandWord)
  | service
  deriving DecidableEq, Repr, Inhabited

/-- One constructor per row of the opcode map (30_encoding.md R73). An operand is the command word's 32-bit operand
field; `Instr.wellFormed` says which values the encoding admits (30_encoding.md R71). -/
inductive Instr where
  /-- `ADD d`, 40_fifo.md R100 -/
  | add (d : Word)
  /-- `GET`, 40_fifo.md R101 -/
  | get
  /-- `TESTCLR`, 40_fifo.md R102 -/
  | testclr
  /-- `STEP d`, 41_classifier.md R122 -/
  | step (d : Word)
  /-- `ONE`, 42_framer.md R144 -/
  | one
  /-- `ZERO`, 42_framer.md R145 -/
  | zero
  /-- `INVALID`, 42_framer.md R146 -/
  | invalid
  /-- `EDGE t`, 43_control.md R170 -/
  | edge (t : Word)
  /-- `OVFRESET`, 43_control.md R171 -/
  | ovfreset
  /-- `DBG idx`, 43_control.md R172 -/
  | dbg (idx : Word)
  /-- `RESET`, 43_control.md R173 -/
  | reset
  deriving DecidableEq, Repr

end Sys2Proof
end

