-- ==== Sys2Proof/Config.lean ====
section
/-! DEFINITION. The implementation parameters and their legal ranges (00_scope.md R8, R9, 41_classifier.md R121), and
the free value that stands for what the agents do in an open order. -/

namespace Sys2Proof

/-- The parameters the model takes as arguments (00_scope.md R8). They are fixed before RESET and no operation
changes them (10_state.md R38); the machine's state carries them along, read-only (log entry 1). -/
structure Config where
  /-- `W_T`: width of a time delta, a timestamp and a FIFO slot. -/
  wT : Nat
  /-- `RB_SLOTS`: number of storage slots of the ring buffer. -/
  rbSlots : Nat
  /-- `SHORT_MIN`, in µs. -/
  shortMin : Nat
  /-- `SHORT_MAX`, in µs. -/
  shortMax : Nat
  /-- `LONG_MIN`, in µs. -/
  longMin : Nat
  /-- `LONG_MAX`, in µs. -/
  longMax : Nat
  /-- `MIN_PREAMBLE`: least count of 1-bits before the 0 that starts DATA. -/
  minPreamble : Nat
  /-- `PCNT_MAX`: the preamble counter saturates here. -/
  pcntMax : Nat
  /-- `PKT_BYTES`: byte capacity of the packet buffer. -/
  pktBytes : Nat
  /-- `INT_PIN`: recorded only, no rule reads it (60_exceptions.md R212). -/
  intPin : Option Nat
  deriving DecidableEq, Repr

namespace Config

/-- The default column of 00_scope.md R8. -/
def default : Config where
  wT := 32
  rbSlots := 200
  shortMin := 52
  shortMax := 64
  longMin := 90
  longMax := 119
  minPreamble := 10
  pcntMax := 255
  pktBytes := 6
  intPin := none

/-- `RB_CAP`: values held without overflow (00_scope.md R8, 40_fifo.md R103). -/
def rbCap (c : Config) : Nat := c.rbSlots - 1

/-- `W_IDX`: width of a cursor, the least width that holds every slot number (00_scope.md R8; 8 for 200 slots). -/
def wIdx (c : Config) : Nat := Nat.log2 (c.rbSlots - 1) + 1

/-- `DBG_COUNT` (00_scope.md R8: fixed). -/
def dbgCount : Nat := 2

/-- A free value: the `n`-th event of an order the spec leaves open, since the producer may do anything between any
two of the consumer's operations and SERVICE need not end (43_control.md R174, R175, 93_implementation_defined.md U25,
U26, log entry 2). It has no body, so nothing can be proved of it that does not hold of every order. -/
opaque freeEvent : Nat → Event

/-- The range column of 00_scope.md R8; the windows are disjoint (41_classifier.md R121). -/
abbrev Legal (c : Config) : Prop :=
  (8 ≤ c.wT ∧ c.wT ≤ 32) ∧
  (2 ≤ c.rbSlots ∧ c.rbSlots ≤ 65536) ∧
  (1 ≤ c.shortMin ∧ c.shortMin ≤ c.shortMax ∧ c.shortMax < c.longMin ∧ c.longMin ≤ c.longMax ∧
    c.longMax ≤ 2 ^ c.wT - 1) ∧
  (1 ≤ c.minPreamble ∧ c.minPreamble ≤ c.pcntMax ∧ c.pcntMax ≤ 255) ∧
  (1 ≤ c.pktBytes ∧ c.pktBytes ≤ 31)

end Config

end Sys2Proof
end

