-- ==== Sys2Proof/WellFormed.lean ====
section
/-! DEFINITION. Which operand values an operation's encoding admits (30_encoding.md R71, R75, R76). -/

namespace Sys2Proof

/-- Operands in range: a `d` or `t` operand has its bits above W_T zero (30_encoding.md R75), a debug index names a
counter (30_encoding.md R76), and the other operations carry no operand. -/
def Instr.wellFormed (c : Config) : Instr → Bool
  | .add d => decide (Fits c.wT d)
  | .get => true
  | .testclr => true
  | .step d => decide (Fits c.wT d)
  | .one => true
  | .zero => true
  | .invalid => true
  | .edge t => decide (Fits c.wT t)
  | .ovfreset => true
  | .dbg idx => decide (idx.toNat < Config.dbgCount)
  | .reset => true

end Sys2Proof
end

