-- ==== Sys2Proof/Decode.lean ====
section
/-! DEFINITION. The decoder, total on 40-bit words, and the encoder (30_encoding.md R70 to R78, R82). -/

namespace Sys2Proof

/-- Why a command word has no meaning (30_encoding.md R78). -/
inductive DecodeError where
  /-- opcode 0x00 or 0x0C to 0xFF (30_encoding.md R74) -/
  | reservedOpcode
  /-- operand bits that must be zero are not (30_encoding.md R75) -/
  | reservedOperand
  /-- a debug index of 2 or more (30_encoding.md R76) -/
  | debugIndex
  deriving DecidableEq, Repr

/-- `opc`, bits 39:32 (30_encoding.md R70). -/
def opcodeOf (w : CommandWord) : BitVec 8 := w.extractLsb' 32 8

/-- `operand`, bits 31:0 (30_encoding.md R70). -/
def operandOf (w : CommandWord) : Word := w.extractLsb' 0 32

/-- Forms `d` and `t`: bits above W_T are reserved (30_encoding.md R71, R75). -/
def decodeTime (c : Config) (opd : Word) (mk : Word → Instr) : Except DecodeError Instr :=
  if Fits c.wT opd then .ok (mk opd) else .error .reservedOperand

/-- Form `none`: the operand must be 0 (30_encoding.md R71, R75). -/
def decodeNone (opd : Word) (i : Instr) : Except DecodeError Instr :=
  if opd = 0 then .ok i else .error .reservedOperand

/-- Form `idx` (30_encoding.md R71, R76). -/
def decodeIdx (opd : Word) : Except DecodeError Instr :=
  if opd.toNat < Config.dbgCount then .ok (.dbg opd) else .error .debugIndex

/-- The decoder of 30_encoding.md R78. -/
def decode (c : Config) (w : CommandWord) : Except DecodeError Instr :=
  match (opcodeOf w).toNat with
  | 0x01 => decodeTime c (operandOf w) .add
  | 0x02 => decodeNone (operandOf w) .get
  | 0x03 => decodeNone (operandOf w) .testclr
  | 0x04 => decodeTime c (operandOf w) .step
  | 0x05 => decodeNone (operandOf w) .one
  | 0x06 => decodeNone (operandOf w) .zero
  | 0x07 => decodeNone (operandOf w) .invalid
  | 0x08 => decodeTime c (operandOf w) .edge
  | 0x09 => decodeNone (operandOf w) .ovfreset
  | 0x0A => decodeIdx (operandOf w)
  | 0x0B => decodeNone (operandOf w) .reset
  | _ => .error .reservedOpcode

/-- The opcode column of 30_encoding.md R73. -/
def Instr.opcode : Instr → BitVec 8
  | .add _ => 0x01#8
  | .get => 0x02#8
  | .testclr => 0x03#8
  | .step _ => 0x04#8
  | .one => 0x05#8
  | .zero => 0x06#8
  | .invalid => 0x07#8
  | .edge _ => 0x08#8
  | .ovfreset => 0x09#8
  | .dbg _ => 0x0A#8
  | .reset => 0x0B#8

/-- The operand field; operand-less operations have 0 there (30_encoding.md R71). -/
def Instr.operand : Instr → Word
  | .add d => d
  | .get => 0
  | .testclr => 0
  | .step d => d
  | .one => 0
  | .zero => 0
  | .invalid => 0
  | .edge t => t
  | .ovfreset => 0
  | .dbg idx => idx
  | .reset => 0

/-- The command word `{opc, operand}` (30_encoding.md R70). -/
def encode (i : Instr) : CommandWord := i.opcode ++ i.operand

/-- The agent that may issue an operation (30_encoding.md R73, 10_state.md R20). -/
def Instr.agent : Instr → Agent
  | .add _ => .producer
  | .get => .consumer
  | .testclr => .consumer
  | .step _ => .consumer
  | .one => .consumer
  | .zero => .consumer
  | .invalid => .consumer
  | .edge _ => .producer
  | .ovfreset => .consumer
  | .dbg _ => .consumer
  | .reset => .host

/-- The command word written in the low `nbits` bits of `w`, bit 0 the least significant; bits above are 0. The
block has one command length, 40 bits (30_encoding.md R77); that a number of more than 40 bits is then no command word at
all is the model's reading (DESIGN CHOICE, log entry 18). -/
def tableWord (nbits w : Nat) : Option CommandWord :=
  if w % 2 ^ nbits < 2 ^ 40 then some (BitVec.ofNat 40 (w % 2 ^ nbits)) else none

/-- The instruction the decoder reads from a word of the opcode table, under the default configuration. -/
def decodeTableWord (nbits w : Nat) : Option Instr :=
  match tableWord nbits w with
  | none => none
  | some cw =>
    match decode Config.default cw with
    | .ok i => some i
    | .error _ => none

end Sys2Proof
end

