-- ==== Sys2Proof/Machine/State.lean ====
section
/-! DEFINITION. The state of the block, its agents' positions, its reset value, and the reasons a step stops
(10_state.md R20 to R40, 00_scope.md R12). -/

namespace Sys2Proof.Machine

/-- The classifier state with its four 2-bit codes (10_state.md R26). -/
inductive Cls where
  /-- code 0: no half-pulse is buffered -/
  | awaitFirstHalf
  /-- code 1: the first half was short -/
  | shortHalfSeen
  /-- code 2: the first half was long -/
  | longHalfSeen
  /-- code 3: has no name and is unreachable (10_state.md R42) -/
  | code3
  deriving DecidableEq, Repr

/-- The framer state: PREAMBLE is code 0, DATA code 1 (10_state.md R27). -/
inductive Frm where
  | preamble
  | data
  deriving DecidableEq, Repr

/-- The class of a half-pulse (30_encoding.md R79). -/
inductive HalfClass where
  | short
  | long
  | bad
  deriving DecidableEq, Repr

/-- A framer input event (30_encoding.md R79). -/
inductive BitEvent where
  | one
  | zero
  | invalid
  deriving DecidableEq, Repr

/-- The event `PKT(bytes, nbytes)` (42_framer.md R147). -/
structure Pkt where
  bytes : List Byte
  nbytes : Nat
  deriving DecidableEq, Repr

/-- A response word (30_encoding.md R72). An empty GET response is `none`, as R72 lets a model do (log entry 4). -/
inductive Response where
  | get (value : Option Word)
  | testclr (full : Bool)
  | dbg (value : Word)
  deriving DecidableEq, Repr

/-- FIFO storage: pairs of a slot number and the value the slot holds, slot numbers strictly rising. Every slot holds a
value (10_state.md R22): a slot that is not listed holds `Memory.unwritten`, and no entry repeats that value. -/
abbrev Memory := List (Nat × Word)

/-- What a slot holds before any ADD has written it. 10_state.md R40 and 93_implementation_defined.md U1 let it be any
value of W_T bits, and the model takes 0 (DESIGN CHOICE, log entry 5). -/
def Memory.unwritten : Word := 0

/-- The timing ring buffer (10_state.md R22 to R25), with the history that INV1 of 10_state.md R41 speaks of. -/
structure Fifo where
  mem : Memory
  wr : Nat
  rd : Nat
  full : Bool
  /-- the slots an ADD has written since the last RESET or overflow, none twice; no operation reads it
  (log entry 17) -/
  written : List Nat
  deriving DecidableEq, Repr

/-- The packet framer (10_state.md R27 to R31). -/
structure Framer where
  frm : Frm
  /-- `await_stop` -/
  awaitStop : Bool
  pcnt : Byte
  pkt : List Byte
  bitCount : Byte
  deriving DecidableEq, Repr

/-- The edge front-end: `fe_prev` and `fe_valid` (10_state.md R32). -/
structure FrontEnd where
  prev : Word
  valid : Bool
  deriving DecidableEq, Repr

/-- The debug counters: `dbg[0]` counts EDGE, `dbg[1]` counts STEP (10_state.md R33). -/
structure DebugCounters where
  dbg0 : Word
  dbg1 : Word
  deriving DecidableEq, Repr

/-- Where the consumer stands in its SERVICE loop (43_control.md R174); the position belongs to the consumer agent
(10_state.md R36, log entry 3). -/
inductive ServicePoint where
  /-- outside SERVICE: the next line it performs is the first GET of a new SERVICE -/
  | idle
  /-- back at the top of the loop, about to GET -/
  | loop
  /-- GET returned `d`: about to STEP it -/
  | step (d : Word)
  /-- GET returned empty: about to TESTCLR -/
  | testclr
  /-- TESTCLR returned 1: about to OVFRESET -/
  | ovfreset
  deriving DecidableEq, Repr

/-- What the agents do once the listed events are over, so that a run of the consumer need not end
(43_control.md R175, log entry 2). -/
inductive Later where
  /-- nothing more is presented: the block holds its state (60_exceptions.md R215) -/
  | quiet
  /-- the same events over and over -/
  | again (es : List Event)
  /-- events in any order at all, the `n`-th of it next (`Config.freeEvent`) -/
  | free (n : Nat)
  deriving DecidableEq, Repr

/-- Everything the spec gives the block (10_state.md R21), and beside it the configuration, the responses returned so
far, the consumer's place in SERVICE, and the events the agents present, in their total order (20_memory.md R61). -/
structure State where
  /-- the parameters, which no operation changes (10_state.md R38) -/
  cfg : Config
  fifo : Fifo
  cls : Cls
  framer : Framer
  front : FrontEnd
  dbg : DebugCounters
  /-- the PKT events emitted, oldest first (10_state.md R39) -/
  out : List Pkt
  /-- the response words returned, oldest first (10_state.md R39) -/
  resps : List Response
  svc : ServicePoint
  /-- the events still to come, next first -/
  sched : List Event
  /-- what comes after them -/
  later : Later
  deriving DecidableEq, Repr

/-- The block raises no exception and no operation stops it (60_exceptions.md R200), so there is no fault. -/
inductive Fault where
  deriving DecidableEq, Repr

/-- The spec gives the input no meaning (00_scope.md R12, 60_exceptions.md R202). Every one is safe: the model stops
where the spec states no response. -/
inductive Refusal where
  /-- an arm of `exec` without a meaning yet; no arm raises it. Safe. -/
  | notModelled (mnemonic : String)
  /-- raised by the fetch of a word with a reserved opcode (30_encoding.md R74). Safe. -/
  | reservedOpcode
  /-- raised by the fetch of a word with a reserved operand bit set, and by ADD, STEP and EDGE given an operand wider
  than W_T (30_encoding.md R75). Safe. -/
  | reservedOperand
  /-- raised by the fetch of a DBG word, and by DBG, with an index of 2 or more (30_encoding.md R76). Safe. -/
  | debugIndex
  /-- raised by the fetch of an operation presented by an agent that may not issue it (30_encoding.md R78). Safe. -/
  | wrongAgent
  /-- raised by RESET and by every step under an illegal configuration (70_reset_and_hazards.md R232). Safe. -/
  | badConfig
  /-- raised by every step from a state that breaks an invariant of 10_state.md R41, and by an operation whose
  pseudocode has no meaning in such a state (10_state.md R42). Safe. -/
  | badState
  deriving DecidableEq, Repr

/-- What an operation answers. -/
abbrev Result := Host.Outcome State Fault Refusal

/-- The framer after reset, with PKT_BYTES zero bytes (10_state.md R40). -/
def Framer.initial (c : Config) : Framer where
  frm := .preamble
  awaitStop := false
  pcnt := 0
  pkt := List.replicate c.pktBytes 0
  bitCount := 0

/-- The state RESET leaves under a configuration (10_state.md R40), every slot as before any ADD, nothing presented, no
response returned and the consumer outside SERVICE (log entries 2 to 5). -/
def State.resetWith (c : Config) : State where
  cfg := c
  fifo := { mem := [], wr := 0, rd := 0, full := false, written := [] }
  cls := .awaitFirstHalf
  framer := Framer.initial c
  front := { prev := 0, valid := false }
  dbg := { dbg0 := 0, dbg1 := 0 }
  out := []
  resps := []
  svc := .idle
  sched := []
  later := .quiet

/-- The block right after reset, in the default configuration of 00_scope.md R8 (log entry 1). -/
def State.reset : State := State.resetWith Config.default

end Sys2Proof.Machine
end

