-- ==== Sys2Proof/Machine/Flags.lean ====
section
/-! DEFINITION. The conditions the block computes: cursor collision, GET's valid bit, the response words
(10_state.md R34, 30_encoding.md R72, 40_fifo.md R100, R101). -/

namespace Sys2Proof.Machine

/-- A cursor after it advances, in a ring of `n` slots (00_scope.md R18, 20_memory.md R51). -/
def nextSlot (n i : Nat) : Nat := (i + 1) % n

/-- Advancing the write cursor would collide with the read cursor: the ADD overflows (40_fifo.md R100). -/
def Fifo.collides (n : Nat) (q : Fifo) : Bool := decide (nextSlot n q.wr = q.rd)

/-- GET returns a value: the cursors differ and no overflow is latched (40_fifo.md R101). -/
def Fifo.readable (q : Fifo) : Bool := decide (q.rd ≠ q.wr) && !q.full

/-- The number of buffered values, `(wr − rd) mod RB_SLOTS` (40_fifo.md R103). -/
def Fifo.count (n : Nat) (q : Fifo) : Nat := (q.wr + n - q.rd) % n

/-- The k-th buffered slot, counted from the read cursor (20_memory.md R51). -/
def Fifo.slotAt (n : Nat) (q : Fifo) (k : Nat) : Nat := (q.rd + k) % n

/-- GET's 33-bit response: `resp[32]` is valid, `resp[31:0]` the value, or 0 when empty (30_encoding.md R72). -/
def getWord : Option Word → BitVec 33
  | none => 0
  | some v => 1#1 ++ v

/-- The response word an operation's response stands for, with its width (30_encoding.md R72). -/
def Response.word : Response → (w : Nat) × BitVec w
  | .get v => ⟨33, getWord v⟩
  | .testclr f => ⟨1, BitVec.ofBool f⟩
  | .dbg v => ⟨32, v⟩

/-- The 2-bit code of a classifier state (10_state.md R26). -/
def Cls.code : Cls → BitVec 2
  | .awaitFirstHalf => 0
  | .shortHalfSeen => 1
  | .longHalfSeen => 2
  | .code3 => 3

/-- The 1-bit code of a framer state (10_state.md R27). -/
def Frm.code : Frm → BitVec 1
  | .preamble => 0
  | .data => 1

end Sys2Proof.Machine
end

