-- ==== Sys2Proof/Machine/Ops.lean ====
section
/-! DEFINITION. The named operations over FIFO storage, the ring buffer, the framer and the whole state, which the
meanings call (40_fifo.md R100, R101, 42_framer.md R140 to R143). The block takes no exception (60_exceptions.md R200),
so there is no exception entry here: the one shared recovery is the framing reset. -/

namespace Sys2Proof.Machine

/-! ### FIFO storage -/

/-- The value slot `i` holds. -/
def Memory.read : Memory → Nat → Word
  | [], _ => Memory.unwritten
  | (j, v) :: rest, i => if i = j then v else Memory.read rest i

/-- An entry put ahead of a list, unless it says only what an unlisted slot holds. -/
def Memory.entry (i : Nat) (v : Word) (m : Memory) : Memory := if v = Memory.unwritten then m else (i, v) :: m

/-- Slot `i` set to `v`, the list kept in its canonical form (20_memory.md R57: one whole slot). -/
def Memory.write : Memory → Nat → Word → Memory
  | [], i, v => Memory.entry i v []
  | (j, u) :: rest, i, v =>
    if i < j then Memory.entry i v ((j, u) :: rest)
    else if i = j then Memory.entry i v rest
    else (j, u) :: Memory.write rest i v

/-- The canonical form: slot numbers strictly rising, and no entry equal to what an unlisted slot holds. -/
abbrev Memory.wf (m : Memory) : Prop := m.Pairwise (fun p q => p.1 < q.1) ∧ ∀ p ∈ m, p.2 ≠ Memory.unwritten

/-! ### The ring buffer -/

/-- `mem[wr] <- d` (40_fifo.md R100); the slot counts as written (10_state.md R41 INV1). -/
def Fifo.store (d : Word) (q : Fifo) : Fifo :=
  { q with mem := Memory.write q.mem q.wr d, written := q.written.insert q.wr }

/-- Both cursors to zero and the flag latched: every value is discarded (40_fifo.md R100, 20_memory.md R60), and no slot
counts as written any more. -/
def Fifo.overflow (q : Fifo) : Fifo := { q with wr := 0, rd := 0, full := true, written := [] }

/-- The pseudocode of ADD on the ring buffer (40_fifo.md R100). A write cursor that names no slot breaks
10_state.md R41 INV1 and has no meaning. -/
def Fifo.add (n : Nat) (d : Word) (q : Fifo) : Option Fifo :=
  if q.wr < n then
    if q.collides n then some (q.store d).overflow
    else some { q.store d with wr := nextSlot n q.wr }
  else none

/-- The pseudocode of GET on the ring buffer, with the value it returns (40_fifo.md R101). A read cursor that names no
slot breaks 10_state.md R41 INV1 and has no meaning. -/
def Fifo.get (n : Nat) (q : Fifo) : Option (Fifo × Option Word) :=
  if q.readable then
    if q.rd < n then some ({ q with rd := nextSlot n q.rd }, some (Memory.read q.mem q.rd)) else none
  else some (q, none)

/-- The pseudocode of TESTCLR on the ring buffer (40_fifo.md R102). -/
def Fifo.clearFull (q : Fifo) : Fifo := { q with full := false }

/-- RESET's part of the ring buffer: `mem` keeps its contents (43_control.md R173, 70_reset_and_hazards.md R241), and no
slot counts as written any more (10_state.md R41 INV1). -/
def Fifo.restart (q : Fifo) : Fifo := { q with wr := 0, rd := 0, full := false, written := [] }

/-! ### The framer -/

/-- `((byte << 1) | b)[7:0]` (42_framer.md R140, 00_scope.md R18). -/
def shiftIn (b : Bool) (x : Byte) : Byte := (x <<< 1) ||| BitVec.zeroExtend 8 (BitVec.ofBool b)

/-- `byteIndex = bitCount div 8` (10_state.md R31). -/
def Framer.byteIndex (f : Framer) : Nat := f.bitCount.toNat / 8

/-- `bitIndexInByte = bitCount mod 8` (10_state.md R31). -/
def Framer.bitIndexInByte (f : Framer) : Nat := f.bitCount.toNat % 8

/-- `AddBit(b)` (42_framer.md R140). -/
def Framer.addBit (b : Bool) (f : Framer) : Framer :=
  { f with pkt := f.pkt.modify f.byteIndex (shiftIn b), bitCount := f.bitCount + 1 }

/-- `Clear` (42_framer.md R141). -/
def Framer.clear (c : Config) (f : Framer) : Framer :=
  { f with pkt := List.replicate c.pktBytes 0, bitCount := 0 }

/-- `FrmReset` (42_framer.md R142). -/
def Framer.frmReset (c : Config) (f : Framer) : Framer :=
  Framer.clear c { f with frm := .preamble, pcnt := 0, awaitStop := false }

/-- `min(pcnt + 1, PCNT_MAX)` (42_framer.md R143, R149). -/
def satSucc (c : Config) (p : Byte) : Byte := BitVec.ofNat 8 (min (p.toNat + 1) c.pcntMax)

/-- The PREAMBLE case of `FrmBit` (42_framer.md R143). -/
def Framer.preambleBit (c : Config) (b : Bool) (f : Framer) : Framer :=
  if b then { f with pcnt := satSucc c f.pcnt }
  else if c.minPreamble ≤ f.pcnt.toNat then { f with frm := .data, pcnt := 0 }
  else { f with pcnt := 0 }

/-- The data-bit case of `FrmBit`: `AddBit`, and the wait for the 9th bit after the 8th (42_framer.md R143). -/
def Framer.dataBit (b : Bool) (f : Framer) : Framer :=
  let g := f.addBit b
  if g.bitIndexInByte = 0 then { g with awaitStop := true } else g

/-- The packet the framer holds, as the PKT event carries it (42_framer.md R147). -/
def Framer.packet (f : Framer) : Pkt where
  bytes := f.pkt.take f.byteIndex
  nbytes := f.byteIndex

/-- The 9th-bit case of `FrmBit`: end bit, no room for the next byte, or continuation (42_framer.md R143, R148). -/
def Framer.stopBit (c : Config) (b : Bool) (f : Framer) : Framer × Option Pkt :=
  if b then (f.frmReset c, some f.packet)
  else if f.bitCount.toNat = 8 * c.pktBytes then (f.frmReset c, none)
  else ({ f with awaitStop := false }, none)

/-- `FrmBit(b)` with the event it emits (42_framer.md R143). `AddBit` is called only with room for a bit
(42_framer.md R140); without it the state breaks 10_state.md R41 INV6 and the bit has no meaning. -/
def Framer.frmBit (c : Config) (b : Bool) (f : Framer) : Option (Framer × Option Pkt) :=
  match f.frm with
  | .preamble => some (f.preambleBit c b, none)
  | .data =>
    if f.awaitStop then some (f.stopBit c b)
    else if f.bitCount.toNat < 8 * c.pktBytes then some (f.dataBit b, none)
    else none

/-! ### The whole state -/

namespace State

def setFifo (q : Fifo) (s : State) : State := { s with fifo := q }

def setCls (k : Cls) (s : State) : State := { s with cls := k }

def setFramer (f : Framer) (s : State) : State := { s with framer := f }

def setFront (e : FrontEnd) (s : State) : State := { s with front := e }

def setDbg (d : DebugCounters) (s : State) : State := { s with dbg := d }

def setOut (o : List Pkt) (s : State) : State := { s with out := o }

def setSvc (p : ServicePoint) (s : State) : State := { s with svc := p }

def setSched (es : List Event) (s : State) : State := { s with sched := es }

def setLater (l : Later) (s : State) : State := { s with later := l }

/-- `return v`: the response word goes to the issuing agent (00_scope.md R11, 30_encoding.md R72). -/
def respond (r : Response) (s : State) : State := { s with resps := s.resps ++ [r] }

/-- `emit PKT(...)`, or nothing (00_scope.md R11, 42_framer.md R147). -/
def emit (p : Option Pkt) (s : State) : State := s.setOut (s.out ++ p.toList)

/-- `dbg[0] <- (dbg[0] + 1) mod 2^W_DBG` (43_control.md R170). -/
def countEdge (s : State) : State := s.setDbg { s.dbg with dbg0 := s.dbg.dbg0 + 1 }

/-- `dbg[1] <- (dbg[1] + 1) mod 2^W_DBG` (41_classifier.md R122). -/
def countStep (s : State) : State := s.setDbg { s.dbg with dbg1 := s.dbg.dbg1 + 1 }

/-- `call FrmReset` (42_framer.md R142). -/
def frmReset (s : State) : State := s.setFramer (s.framer.frmReset s.cfg)

end State

/-- One operation's result handed on to what follows it in the same atomic step (00_scope.md R11, R13). -/
def andThen (r : Result) (f : State → Result) : Result :=
  match r with
  | .next s => f s
  | .fault e => .fault e
  | .refused e => .refused e

/-- ADD's effect on the block, which EDGE performs too (40_fifo.md R100, 43_control.md R170). -/
def fifoAdd (d : Word) (s : State) : Result :=
  match s.fifo.add s.cfg.rbSlots d with
  | some q => .next (s.setFifo q)
  | none => .refused .badState

/-- `FrmBit(b)` on the block, which ONE, ZERO and STEP perform (42_framer.md R143). -/
def frmBit (b : Bool) (s : State) : Result :=
  match s.framer.frmBit s.cfg b with
  | some (f, p) => .next ((s.setFramer f).emit p)
  | none => .refused .badState

end Sys2Proof.Machine
end

