-- ==== Sys2Proof/Machine/Operands.lean ====
section
/-! DEFINITION. The operand forms: time values `d` and `t`, the debug index `idx` (30_encoding.md R71, R75, R76). A
decoded operation always has its operand in range; a meaning given another one refuses it by the reason the decoder
gives (log entry 8). -/

namespace Sys2Proof.Machine

/-- Forms `d` and `t`: the meaning `k` on an operand of W_T bits (30_encoding.md R71, R75). -/
def withTime (v : Word) (s : State) (k : Word → State → Result) : Result :=
  if Fits s.cfg.wT v then k v s else .refused .reservedOperand

/-- Form `idx`: the counter the index names (30_encoding.md R76, 20_memory.md R50). -/
def DebugCounters.read (d : DebugCounters) (idx : Word) : Option Word :=
  match idx.toNat with
  | 0 => some d.dbg0
  | 1 => some d.dbg1
  | _ => none

/-- The delta between two timestamps, `(t − prev) mod 2^W_T` (43_control.md R170, 00_scope.md R18). -/
def timeDelta (c : Config) (t prev : Word) : Word := BitVec.ofNat 32 ((t - prev).toNat % 2 ^ c.wT)

end Sys2Proof.Machine
end

