-- ==== Sys2Proof/Machine/Framer.lean ====
section
/-! DEFINITION. The meanings of ONE, ZERO and INVALID (42_framer.md R144 to R146). -/

namespace Sys2Proof.Machine

/-- ONE: `FrmBit(1)` (42_framer.md R144). -/
def execOne (s : State) : Result := frmBit true s

/-- ZERO: `FrmBit(0)` (42_framer.md R145). -/
def execZero (s : State) : Result := frmBit false s

/-- INVALID: `FrmReset` (42_framer.md R146). -/
def execInvalid (s : State) : Result := .next s.frmReset

/-- The framer operation a bit event stands for, performed inside another operation's atomic step
(30_encoding.md R79, 41_classifier.md R122). -/
def frameEvent : BitEvent → State → Result
  | .one, s => frmBit true s
  | .zero, s => frmBit false s
  | .invalid, s => .next s.frmReset

end Sys2Proof.Machine
end

