-- ==== Sys2Proof/Machine/Classifier.lean ====
section
/-! DEFINITION. The half-bit classifier and the meaning of STEP (41_classifier.md R120 to R124). -/

namespace Sys2Proof.Machine

/-- `Classify(d)`: both windows are closed (41_classifier.md R120). -/
def classify (c : Config) (d : Word) : HalfClass :=
  if c.shortMin ≤ d.toNat ∧ d.toNat ≤ c.shortMax then .short
  else if c.longMin ≤ d.toNat ∧ d.toNat ≤ c.longMax then .long
  else .bad

/-- The transition table of STEP: the classifier state after, and the framer event if there is one
(41_classifier.md R122). Code 3 is unreachable and has no row (10_state.md R42). -/
def pairHalf : Cls → HalfClass → Option (Cls × Option BitEvent)
  | .awaitFirstHalf, .short => some (.shortHalfSeen, none)
  | .awaitFirstHalf, .long => some (.longHalfSeen, none)
  | .awaitFirstHalf, .bad => some (.awaitFirstHalf, some .invalid)
  | .shortHalfSeen, .short => some (.awaitFirstHalf, some .one)
  | .shortHalfSeen, .long => some (.awaitFirstHalf, some .invalid)
  | .shortHalfSeen, .bad => some (.awaitFirstHalf, some .invalid)
  | .longHalfSeen, .short => some (.awaitFirstHalf, some .invalid)
  | .longHalfSeen, .long => some (.awaitFirstHalf, some .zero)
  | .longHalfSeen, .bad => some (.awaitFirstHalf, some .invalid)
  | .code3, _ => none

/-- The body of STEP on a delta of W_T bits (41_classifier.md R122). -/
def stepDelta (d : Word) (s : State) : Result :=
  match pairHalf s.cls (classify s.cfg d) with
  | none => .refused .badState
  | some (k, none) => .next (s.countStep.setCls k)
  | some (k, some e) => frameEvent e (s.countStep.setCls k)

/-- STEP (41_classifier.md R122). -/
def execStep (d : Word) (s : State) : Result := withTime d s stepDelta

end Sys2Proof.Machine
end

