-- ==== Sys2Proof/Machine/Control.lean ====
section
/-! DEFINITION. The meanings of EDGE, OVFRESET, DBG and RESET, and bringing the block up (43_control.md R170 to R173,
70_reset_and_hazards.md R231, R232). -/

namespace Sys2Proof.Machine

/-- The previous edge's timestamp becomes `t` (43_control.md R170). -/
def rememberEdge (t : Word) (s : State) : State := s.setFront { prev := t, valid := true }

/-- The body of EDGE on a timestamp of W_T bits: count, push the delta unless this is the first edge, remember the time
(43_control.md R170). -/
def edgeAt (t : Word) (s : State) : Result :=
  let s1 := s.countEdge
  if s1.front.valid then
    andThen (fifoAdd (timeDelta s1.cfg t s1.front.prev) s1) (fun s2 => .next (rememberEdge t s2))
  else .next (rememberEdge t s1)

/-- EDGE (43_control.md R170). -/
def execEdge (t : Word) (s : State) : Result := withTime t s edgeAt

/-- OVFRESET (43_control.md R171). -/
def execOvfreset (s : State) : Result := .next (s.setCls .awaitFirstHalf).frmReset

/-- DBG (43_control.md R172). -/
def execDbg (idx : Word) (s : State) : Result :=
  match s.dbg.read idx with
  | some v => .next (s.respond (.dbg v))
  | none => .refused .debugIndex

/-- The assignments of RESET (43_control.md R173). `mem` keeps its contents; what belongs to the agents and the
responses already returned are not the block's to reset (log entry 10). -/
def resetBlock (s : State) : State :=
  ((((((s.setFifo s.fifo.restart).setCls .awaitFirstHalf).frmReset).setFront
    { prev := 0, valid := false }).setDbg { dbg0 := 0, dbg1 := 0 }).setOut [])

/-- RESET: it checks the configuration first (43_control.md R173, 70_reset_and_hazards.md R232). -/
def execReset (s : State) : Result :=
  if s.cfg.Legal then .next (resetBlock s) else .refused .badConfig

/-- Steps 1 to 3 of the boot order: a configuration is fixed and RESET performed, or there is no run
(70_reset_and_hazards.md R231, R232). -/
def boot (c : Config) : Result :=
  if c.Legal then .next (State.resetWith c) else .refused .badConfig

end Sys2Proof.Machine
end

