-- ==== Sys2Proof/Machine/Fifo.lean ====
section
/-! DEFINITION. The meanings of ADD, GET and TESTCLR (40_fifo.md R100 to R102). -/

namespace Sys2Proof.Machine

/-- ADD (40_fifo.md R100). -/
def execAdd (d : Word) (s : State) : Result := withTime d s fifoAdd

/-- GET (40_fifo.md R101). -/
def execGet (s : State) : Result :=
  match s.fifo.get s.cfg.rbSlots with
  | some (q, v) => .next ((s.setFifo q).respond (.get v))
  | none => .refused .badState

/-- TESTCLR (40_fifo.md R102). -/
def execTestclr (s : State) : Result :=
  .next ((s.setFifo s.fifo.clearFull).respond (.testclr s.fifo.full))

end Sys2Proof.Machine
end

