-- ==== Sys2Proof/Machine/Dispatch.lean ====
section
/-! DEFINITION. One meaning per operation of the opcode map (30_encoding.md R73). -/

namespace Sys2Proof.Machine

/-- The effect of an operation as one atomic step (00_scope.md R13). -/
def exec (i : Instr) (s : State) : Host.Outcome State Fault Refusal :=
  match i with
  -- 40_fifo.md
  | .add d => Sys2Proof.Machine.execAdd d s
  | .get => Sys2Proof.Machine.execGet s
  | .testclr => Sys2Proof.Machine.execTestclr s
  -- 41_classifier.md
  | .step d => Sys2Proof.Machine.execStep d s
  -- 42_framer.md
  | .one => Sys2Proof.Machine.execOne s
  | .zero => Sys2Proof.Machine.execZero s
  | .invalid => Sys2Proof.Machine.execInvalid s
  -- 43_control.md
  | .edge t => Sys2Proof.Machine.execEdge t s
  | .ovfreset => Sys2Proof.Machine.execOvfreset s
  | .dbg idx => Sys2Proof.Machine.execDbg idx s
  | .reset => Sys2Proof.Machine.execReset s

end Sys2Proof.Machine
end

