-- ==== Sys2Proof/Machine/Valid.lean ====
section
/-! DEFINITION. Which states the block can hold: the widths of 10_state.md R21 and the invariants INV1 to INV9 of
10_state.md R41. -/

namespace Sys2Proof.Machine

namespace State

/-- The fields have the shapes and widths of 10_state.md R21: `mem` is canonical with slots below RB_SLOTS and values of
W_T bits, the slots counted as written are slots and none is counted twice, `pkt` has PKT_BYTES bytes, `fe_prev` W_T
bits. -/
abbrev Shaped (s : State) : Prop :=
  Memory.wf s.fifo.mem ∧
  (∀ p ∈ s.fifo.mem, p.1 < s.cfg.rbSlots ∧ Fits s.cfg.wT p.2) ∧
  (s.fifo.written.Nodup ∧ ∀ i ∈ s.fifo.written, i < s.cfg.rbSlots) ∧
  s.framer.pkt.length = s.cfg.pktBytes ∧
  Fits s.cfg.wT s.front.prev

/-- INV1: the cursors name slots, and every slot a GET could read was written by an ADD since the last RESET or
overflow. -/
abbrev Inv1 (s : State) : Prop :=
  s.fifo.wr < s.cfg.rbSlots ∧ s.fifo.rd < s.cfg.rbSlots ∧
  ∀ k < s.fifo.count s.cfg.rbSlots, s.fifo.slotAt s.cfg.rbSlots k ∈ s.fifo.written

/-- INV2: in PREAMBLE the packet is empty and no 9th bit is awaited. -/
abbrev Inv2 (s : State) : Prop :=
  s.framer.frm = .preamble →
    s.framer.bitCount = 0 ∧ s.framer.awaitStop = false ∧ ∀ j < s.framer.pkt.length, s.framer.pkt[j]? = some 0

/-- INV3: in DATA the preamble counter is 0. -/
abbrev Inv3 (s : State) : Prop := s.framer.frm = .data → s.framer.pcnt = 0

/-- INV4: the packet holds no more bits than its bytes. -/
abbrev Inv4 (s : State) : Prop := s.framer.bitCount.toNat ≤ 8 * s.cfg.pktBytes

/-- INV5: a 9th bit is awaited only in DATA, after whole bytes. -/
abbrev Inv5 (s : State) : Prop :=
  s.framer.awaitStop = true →
    s.framer.frm = .data ∧ s.framer.bitCount.toNat % 8 = 0 ∧ 8 ≤ s.framer.bitCount.toNat

/-- INV6: while data bits arrive there is room for one. -/
abbrev Inv6 (s : State) : Prop :=
  s.framer.frm = .data → s.framer.awaitStop = false → s.framer.bitCount.toNat < 8 * s.cfg.pktBytes

/-- INV7: the preamble counter is at most PCNT_MAX. -/
abbrev Inv7 (s : State) : Prop := s.framer.pcnt.toNat ≤ s.cfg.pcntMax

/-- INV8: the classifier state is one of the three named ones. -/
abbrev Inv8 (s : State) : Prop := s.cls ≠ .code3

/-- INV9: bytes after the current one are 0, and the current one holds only the bits added to it. -/
abbrev Inv9 (s : State) : Prop :=
  (∀ j < s.framer.pkt.length, s.framer.byteIndex < j → s.framer.pkt[j]? = some 0) ∧
  (s.framer.byteIndex < s.framer.pkt.length →
    (s.framer.pkt.getD s.framer.byteIndex 0).toNat < 2 ^ s.framer.bitIndexInByte)

/-- The invariants of 10_state.md R41 over a state of the shape of R21. -/
abbrev Valid (s : State) : Prop :=
  s.Shaped ∧ s.Inv1 ∧ s.Inv2 ∧ s.Inv3 ∧ s.Inv4 ∧ s.Inv5 ∧ s.Inv6 ∧ s.Inv7 ∧ s.Inv8 ∧ s.Inv9

/-- Why a step is refused before anything is fetched: an illegal configuration has no run
(70_reset_and_hazards.md R232), and a state that breaks the invariants is not stepped from (10_state.md R42,
log entries 6 and 7). -/
def rejection (s : State) : Option Refusal :=
  if s.cfg.Legal then (if s.Valid then none else some .badState) else some .badConfig

end State

end Sys2Proof.Machine
end

