-- ==== Sys2Proof/Machine/Fetch.lean ====
section
/-! DEFINITION. What the next event asks of the block (30_encoding.md R78, 10_state.md R20, 43_control.md R174). -/

namespace Sys2Proof.Machine

/-- The refusal a decoding error stands for (30_encoding.md R74 to R76). -/
def refusalOf : DecodeError → Refusal
  | .reservedOpcode => .reservedOpcode
  | .reservedOperand => .reservedOperand
  | .debugIndex => .debugIndex

/-- A command word decoded, and then its issuing agent checked (30_encoding.md R78). -/
def acceptCommand (c : Config) (a : Agent) (w : CommandWord) : Except Refusal Instr :=
  match decode c w with
  | .error e => .error (refusalOf e)
  | .ok i => if i.agent = a then .ok i else .error .wrongAgent

/-- The operation the consumer performs at a point of SERVICE (43_control.md R174). -/
def serviceInstr : ServicePoint → Instr
  | .idle => .get
  | .loop => .get
  | .step d => .step d
  | .testclr => .testclr
  | .ovfreset => .ovfreset

/-- What the next event of the schedule asks for. -/
inductive Fetched where
  /-- nothing is presented: the block holds its state -/
  | nothing
  /-- the word presented has no meaning -/
  | refused (r : Refusal)
  /-- an agent's command, with the state whose schedule has moved past it -/
  | command (i : Instr) (s : State)
  /-- the consumer's next operation in SERVICE, with the state whose schedule has moved past the event -/
  | service (i : Instr) (s : State)
  deriving DecidableEq, Repr

/-- The next event of the total order and the state that has moved past it (20_memory.md R61): the first one listed, or
else the first of what comes after the list. -/
def nextEvent (s : State) : Option (Event × State) :=
  match s.sched with
  | e :: rest => some (e, s.setSched rest)
  | [] =>
    match s.later with
    | .quiet => none
    | .again [] => none
    | .again (e :: rest) => some (e, s.setSched rest)
    | .free n => some (Config.freeEvent n, s.setLater (.free (n + 1)))

/-- Take the next event. -/
def fetch (s : State) : Fetched :=
  match nextEvent s with
  | none => .nothing
  | some (.command a w, s') =>
    match acceptCommand s.cfg a w with
    | .ok i => .command i s'
    | .error r => .refused r
  | some (.service, s') => .service (serviceInstr s.svc) s'

/-- The agent that presents a word when none is named: the one 10_state.md R20 allows (30_encoding.md R80); a word
that decodes to nothing is presented by the consumer, and refused whoever presents it. -/
def defaultAgent (c : Config) (w : CommandWord) : Agent :=
  match decode c w with
  | .ok i => i.agent
  | .error _ => .consumer

/-- Present a command word next, ahead of what is already presented (log entry 2). -/
def present (w : CommandWord) (s : State) : State :=
  s.setSched (.command (defaultAgent s.cfg w) w :: s.sched)

/-- Present the word written in the low `nbits` bits of `w`, as the opcode table numbers them. A number of more than 40
bits is no command word, so nothing is presented (DESIGN CHOICE, log entry 18: the spec knows 40-bit commands only,
30_encoding.md R77). -/
def presentTableWord (s : State) (nbits w : Nat) : State :=
  match tableWord nbits w with
  | some cw => present cw s
  | none => s

end Sys2Proof.Machine
end

