-- ==== Sys2Proof/Machine/Service.lean ====
section
/-! DEFINITION. The consumer's SERVICE loop (43_control.md R174 to R176): a sequence of separate atomic operations,
whose control flow follows the response words. -/

namespace Sys2Proof.Machine

/-- Where the consumer stands after its operation at `p`, the responses so far being `rs` (43_control.md R174): a GET
that returned a value leads to STEP, an empty one to TESTCLR; STEP leads back to GET; a TESTCLR that returned 1 leads to
OVFRESET, and otherwise SERVICE ends. -/
def serviceNext (p : ServicePoint) (rs : List Response) : ServicePoint :=
  match p with
  | .idle =>
    match rs.getLast? with
    | some (.get (some d)) => .step d
    | _ => .testclr
  | .loop =>
    match rs.getLast? with
    | some (.get (some d)) => .step d
    | _ => .testclr
  | .step _ => .loop
  | .testclr =>
    match rs.getLast? with
    | some (.testclr true) => .ovfreset
    | _ => .idle
  | .ovfreset => .idle

/-- The consumer moves on from `p` after an operation that answered. -/
def advanceService (p : ServicePoint) (s : State) : Result := .next (s.setSvc (serviceNext p s.resps))

end Sys2Proof.Machine
end

