-- ==== Sys2Proof/Machine/Step.lean ====
section
/-! DEFINITION. One step of the block: the next operation of the total order, performed atomically
(20_memory.md R61, 00_scope.md R13). -/

namespace Sys2Proof.Machine

/-- One step. A state that has no run is refused first; with nothing presented the block holds its state
(60_exceptions.md R215); otherwise the next event's operation is performed. -/
def step (s : State) : Host.Outcome State Fault Refusal :=
  match s.rejection with
  | some r => .refused r
  | none =>
    match fetch s with
    | .nothing => .next s
    | .refused r => .refused r
    | .command i s' => exec i s'
    | .service i s' => andThen (exec i s') (advanceService s.svc)

/-- The state in which the next step runs the word written in the low `nbits` bits of `w` (log entry 2); a
number that is no command word leaves the state as it is (DESIGN CHOICE, log entry 18). -/
def State.withFetchWord (s : State) (nbits w : Nat) : State := presentTableWord s nbits w

end Sys2Proof.Machine
end

