-- ==== Sys2Proof/Machine/View.lean ====
section
/-! DEFINITION. What claims look at: the buffered values in order, the deltas on their way to the classifier, the bit
events of a sequence of deltas, bytes as bits, and runs over lists of operations. -/

namespace Sys2Proof.Machine

/-- The buffered values, oldest first (40_fifo.md R103, 20_memory.md R61). -/
def State.queue (s : State) : List Word :=
  (List.range (s.fifo.count s.cfg.rbSlots)).map
    (fun k => Memory.read s.fifo.mem (s.fifo.slotAt s.cfg.rbSlots k))

/-- The delta SERVICE has taken from the buffer and not yet classified. -/
def ServicePoint.held : ServicePoint → List Word
  | .idle => []
  | .loop => []
  | .step d => [d]
  | .testclr => []
  | .ovfreset => []

/-- The deltas pushed and not yet classified by SERVICE, oldest first (43_control.md R177). -/
def State.backlog (s : State) : List Word := s.svc.held ++ s.queue

/-- Operations performed one after another, stopping where one does not answer. -/
def execAll : List Instr → State → Result
  | [], s => .next s
  | i :: is, s => andThen (exec i s) (execAll is)

/-- The bit events of a sequence of deltas, from a classifier state, and the state after (41_classifier.md R122). -/
def bitEvents (c : Config) : Cls → List Word → Cls × List BitEvent
  | k, [] => (k, [])
  | k, d :: ds =>
    match pairHalf k (classify c d) with
    | none => bitEvents c k ds
    | some (k', e) => ((bitEvents c k' ds).1, e.toList ++ (bitEvents c k' ds).2)

/-- The framer operation that is a bit event (30_encoding.md R79). -/
def BitEvent.instr : BitEvent → Instr
  | .one => .one
  | .zero => .zero
  | .invalid => .invalid

/-- The operation that presents a bit (30_encoding.md R81, `BIT`). -/
def bitInstr (b : Bool) : Instr := if b then .one else .zero

/-- The bits of a byte in the order they are received, bit 7 first (20_memory.md R53). -/
def byteBits (x : Byte) : List Bool :=
  [x.getLsbD 7, x.getLsbD 6, x.getLsbD 5, x.getLsbD 4, x.getLsbD 3, x.getLsbD 2, x.getLsbD 1, x.getLsbD 0]

/-- The bits after the start bit of a packet: each byte followed by a continuation 0, the last by the end bit 1
(42_framer.md R143). -/
def packetBits : List Byte → List Bool
  | [] => []
  | [x] => byteBits x ++ [true]
  | x :: xs => byteBits x ++ [false] ++ packetBits xs

/-- Bytes each followed by a continuation 0, with no end bit. -/
def continuedBits (xs : List Byte) : List Bool := xs.flatMap (fun x => byteBits x ++ [false])

/-- The values GET responses returned, in order. -/
def gotten (rs : List Response) : List Word :=
  rs.filterMap (fun r => match r with
    | .get v => v
    | .testclr _ => none
    | .dbg _ => none)

/-- EDGE, which `dbg[0]` counts (10_state.md R33). -/
def isEdge : Instr → Bool
  | .add _ => false
  | .get => false
  | .testclr => false
  | .step _ => false
  | .one => false
  | .zero => false
  | .invalid => false
  | .edge _ => true
  | .ovfreset => false
  | .dbg _ => false
  | .reset => false

/-- STEP, which `dbg[1]` counts (10_state.md R33). -/
def isStep : Instr → Bool
  | .add _ => false
  | .get => false
  | .testclr => false
  | .step _ => true
  | .one => false
  | .zero => false
  | .invalid => false
  | .edge _ => false
  | .ovfreset => false
  | .dbg _ => false
  | .reset => false

/-- DBG, the one reader of the counters (10_state.md R33). -/
def isDbg : Instr → Bool
  | .add _ => false
  | .get => false
  | .testclr => false
  | .step _ => false
  | .one => false
  | .zero => false
  | .invalid => false
  | .edge _ => false
  | .ovfreset => false
  | .dbg _ => true
  | .reset => false

/-- The values a list of operations ADDs, in order. -/
def added (is : List Instr) : List Word :=
  is.filterMap (fun i => match i with
    | .add d => some d
    | .get => none
    | .testclr => none
    | .step _ => none
    | .one => none
    | .zero => none
    | .invalid => none
    | .edge _ => none
    | .ovfreset => none
    | .dbg _ => none
    | .reset => none)

/-- How many STEPs of a run move `cls` from AWAIT_FIRST_HALF to a half-seen state (41_classifier.md R123). -/
def firstHalfMoves : List Word → State → Nat
  | [], _ => 0
  | d :: ds, s =>
    match exec (.step d) s with
    | .next t => (if s.cls = .awaitFirstHalf ∧ t.cls ≠ .awaitFirstHalf then 1 else 0) + firstHalfMoves ds t
    | .fault _ => 0
    | .refused _ => 0

/-- The FIFO slot an operation stores to: ADD, and EDGE when it pushes a delta (10_state.md R35). -/
def storedSlot (i : Instr) (s : State) : Option Nat :=
  match i with
  | .add _ => some s.fifo.wr
  | .get => none
  | .testclr => none
  | .step _ => none
  | .one => none
  | .zero => none
  | .invalid => none
  | .edge _ => if s.front.valid then some s.fifo.wr else none
  | .ovfreset => none
  | .dbg _ => none
  | .reset => none

/-- The deltas a sequence of edges pushes, from what the front-end remembers (43_control.md R170). -/
def edgeDeltas (c : Config) : FrontEnd → List Word → List Word
  | _, [] => []
  | e, u :: us =>
    if e.valid then timeDelta c u e.prev :: edgeDeltas c { prev := u, valid := true } us
    else edgeDeltas c { prev := u, valid := true } us

/-- An operation has this opcode, operand field and issuing agent (30_encoding.md R70, R73). -/
def IssuedAs (i : Instr) (opc : BitVec 8) (operand : Word) (a : Agent) : Prop :=
  encode i = opc ++ operand ∧ i.agent = a

/-- Both halves of a bit are of the class that makes it: short and short for 1, long and long for 0
(41_classifier.md R122). -/
def HalvesOf (c : Config) (b : Bool) (p : Word × Word) : Prop :=
  if b then classify c p.1 = .short ∧ classify c p.2 = .short
  else classify c p.1 = .long ∧ classify c p.2 = .long

/-- The STEPs of a sequence of pairs of halves. -/
def stepsOf (ps : List (Word × Word)) : List Instr := ps.flatMap (fun p => [.step p.1, .step p.2])

/-- The EDGE command the producer presents. -/
def edgeEvent (u : Word) : Event := .command .producer (encode (.edge u))

end Sys2Proof.Machine
end

