-- ==== Sys2Proof/Machine/Asm.lean ====
section
/-! DEFINITION. The assembly notation and the pseudo-operations (30_encoding.md R80, R81). Text is a list of
characters. SERVICE has no fixed expansion: it is the `service` events of the schedule (43_control.md R174). -/

namespace Sys2Proof.Machine.Asm

/-- The letter before the colon that names the issuing agent (30_encoding.md R80). -/
def agentLetter : Agent → Char
  | .producer => 'P'
  | .consumer => 'C'
  | .host => 'H'

/-- The mnemonic column of 30_encoding.md R73. -/
def mnemonic : Instr → List Char
  | .add _ => ['A', 'D', 'D']
  | .get => ['G', 'E', 'T']
  | .testclr => ['T', 'E', 'S', 'T', 'C', 'L', 'R']
  | .step _ => ['S', 'T', 'E', 'P']
  | .one => ['O', 'N', 'E']
  | .zero => ['Z', 'E', 'R', 'O']
  | .invalid => ['I', 'N', 'V', 'A', 'L', 'I', 'D']
  | .edge _ => ['E', 'D', 'G', 'E']
  | .ovfreset => ['O', 'V', 'F', 'R', 'E', 'S', 'E', 'T']
  | .dbg _ => ['D', 'B', 'G']
  | .reset => ['R', 'E', 'S', 'E', 'T']

/-- Decimal digits of an operand. -/
def decimal (n : Nat) : List Char := Nat.toDigits 10 n

/-- `0x` and two hexadecimal digits, as PKT events write a byte (30_encoding.md R80). -/
def hexByte (x : Byte) : List Char :=
  let digit (n : Nat) : Char := Char.ofNat (if n < 10 then 48 + n else 55 + n)
  ['0', 'x', digit (x.toNat / 16), digit (x.toNat % 16)]

/-- The operand as written, if the operation has one. -/
def operandText : Instr → List Char
  | .add d => ' ' :: decimal d.toNat
  | .get => []
  | .testclr => []
  | .step d => ' ' :: decimal d.toNat
  | .one => []
  | .zero => []
  | .invalid => []
  | .edge t => ' ' :: decimal t.toNat
  | .ovfreset => []
  | .dbg idx => ' ' :: decimal idx.toNat
  | .reset => []

/-- One line: agent, mnemonic, operand (30_encoding.md R80). -/
def line (i : Instr) : List Char := agentLetter i.agent :: ':' :: ' ' :: (mnemonic i ++ operandText i)

/-- A response as written after the operation (30_encoding.md R80). -/
def responseText : Response → List Char
  | .get none => ['-', '>', ' ', 'e', 'm', 'p', 't', 'y']
  | .get (some v) => ['-', '>', ' '] ++ decimal v.toNat
  | .testclr f => ['-', '>', ' '] ++ decimal f.toNat
  | .dbg v => ['-', '>', ' '] ++ decimal v.toNat

/-- A PKT event as written (30_encoding.md R80). -/
def pktText (p : Pkt) : List Char :=
  ['=', '>', ' ', 'P', 'K', 'T', '['] ++ ((p.bytes.map hexByte).intersperse [',', ' ']).flatten ++ [']']

/-- The text before a comment. -/
def withoutComment : List Char → List Char
  | [] => []
  | c :: cs => if c = ';' then [] else c :: withoutComment cs

/-- The words of a line, `current` being the word read so far, reversed. -/
def wordsFrom (current : List Char) : List Char → List (List Char)
  | [] => if current = [] then [] else [current.reverse]
  | c :: cs =>
    if c = ' ' ∨ c = '\t' then
      (if current = [] then wordsFrom [] cs else current.reverse :: wordsFrom [] cs)
    else wordsFrom (c :: current) cs

/-- The value of a digit in base `b`. -/
def digitValue (b : Nat) (c : Char) : Option Nat :=
  let n := c.toNat
  let v := if 48 ≤ n ∧ n ≤ 57 then n - 48
    else if 65 ≤ n ∧ n ≤ 70 then n - 55
    else if 97 ≤ n ∧ n ≤ 102 then n - 87
    else b
  if v < b then some v else none

/-- Digits read in base `b` onto an accumulator. -/
def readDigits (b : Nat) : Nat → List Char → Option Nat
  | acc, [] => some acc
  | acc, c :: cs =>
    match digitValue b c with
    | some v => readDigits b (acc * b + v) cs
    | none => none

/-- A number in decimal or `0x` hex (30_encoding.md R80). -/
def number : List Char → Option Nat
  | '0' :: 'x' :: c :: cs => readDigits 16 0 (c :: cs)
  | c :: cs => readDigits 10 0 (c :: cs)
  | [] => none

/-- A number as an operand field: it must fit the field's 32 bits. -/
def operandNumber (cs : List Char) : Option Word :=
  match number cs with
  | some n => if n < 2 ^ 32 then some (BitVec.ofNat 32 n) else none
  | none => none

/-- A string of 0 and 1 (30_encoding.md R81). -/
def bitString : List Char → Option (List Bool)
  | [] => some []
  | c :: cs =>
    match bitString cs with
    | none => none
    | some bs => if c = '1' then some (true :: bs) else if c = '0' then some (false :: bs) else none

/-- `SEND1` and `SEND0`: two halves of the document's nominal length, which lie in the default windows only
(30_encoding.md R81). -/
def send (b : Bool) : List Instr := if b then [.step 58, .step 58] else [.step 100, .step 100]

/-- The expansion of a pseudo-operation, named with its operand text (30_encoding.md R81). -/
def expandPseudo (name operand : List Char) : Option (List Instr) :=
  if name = ['B', 'I', 'T'] ∧ (operand = ['1'] ∨ operand = ['0']) then some [bitInstr (operand = ['1'])]
  else if name = ['B', 'I', 'T', 'S'] then (bitString operand).map (fun bs => bs.map bitInstr)
  else if name = ['S', 'E', 'N', 'D', 'B', 'I', 'T', 'S'] then (bitString operand).map (fun bs => bs.flatMap send)
  else none

/-- An operation without operand, or a pseudo-operation without one. -/
def plainOperation (name : List Char) : Option (List Instr) :=
  if name = ['S', 'E', 'N', 'D', '1'] then some (send true)
  else if name = ['S', 'E', 'N', 'D', '0'] then some (send false)
  else
    match [Instr.get, .testclr, .one, .zero, .invalid, .ovfreset, .reset].find? (fun i => mnemonic i = name) with
    | some i => some [i]
    | none => none

/-- An operation with an operand. -/
def operandOperation (name operand : List Char) : Option (List Instr) :=
  match expandPseudo name operand with
  | some is => some is
  | none =>
    match operandNumber operand with
    | none => none
    | some v =>
      match [Instr.add v, .step v, .edge v, .dbg v].find? (fun i => mnemonic i = name) with
      | some i => some [i]
      | none => none

/-- The operations a line without its agent letter stands for. A string of bits may be written in groups, as
95_test_vectors.md writes it. -/
def operations : List (List Char) → Option (List Instr)
  | [] => some []
  | [name] => plainOperation name
  | [name, operand] => operandOperation name operand
  | name :: groups => expandPseudo name groups.flatten

/-- The agent a first word names. -/
def agentWord (w : List Char) : Option Agent :=
  [Agent.producer, .consumer, .host].find? (fun a => w = [agentLetter a, ':'])

/-- A line read: each operation with the agent that issues it, the one named, or else the one 10_state.md R20 allows
(30_encoding.md R80). -/
def readLine (text : List Char) : Option (List (Agent × Instr)) :=
  match wordsFrom [] (withoutComment text) with
  | [] => some []
  | w :: ws =>
    match agentWord w with
    | some a => (operations ws).map (fun is => is.map (fun i => (a, i)))
    | none => (operations (w :: ws)).map (fun is => is.map (fun i => (i.agent, i)))

/-- The schedule of a list of issued operations. -/
def events (is : List (Agent × Instr)) : List Event := is.map (fun p => .command p.1 (encode p.2))

end Sys2Proof.Machine.Asm
end

