-- ==== Sys2Proof/Machine/Errors.lean ====
section
/-! DEFINITION. The error conditions of 60_exceptions.md R201. They are labels: the block stores none of them, and each
is recovered by the operation that meets it. -/

namespace Sys2Proof.Machine

/-- The names of 60_exceptions.md R201. -/
inductive ErrorCondition where
  | timingBad
  | timingMismatch
  | fifoOverflow
  | pktCapacity
  deriving DecidableEq, Repr

/-- The code column of 60_exceptions.md R201. -/
def ErrorCondition.code : ErrorCondition → Nat
  | .timingBad => 1
  | .timingMismatch => 2
  | .fifoOverflow => 3
  | .pktCapacity => 4

/-- A 0-bit as the 9th bit after PKT_BYTES bytes (42_framer.md R148). -/
def capacityReached (c : Config) (f : Framer) : Bool :=
  f.frm = .data && f.awaitStop && decide (f.bitCount.toNat = 8 * c.pktBytes)

/-- The second half of a pair is not of the class of the first (60_exceptions.md R201). A BAD second half counts too:
60_exceptions.md R205 says that both timing conditions can apply to one pair (log entry 12). -/
def mismatched : Cls → HalfClass → Bool
  | .shortHalfSeen, h => decide (h ≠ .short)
  | .longHalfSeen, h => decide (h ≠ .long)
  | .awaitFirstHalf, _ => false
  | .code3, _ => false

/-- The conditions ZERO meets. -/
def zeroConditions (s : State) : List ErrorCondition :=
  if capacityReached s.cfg s.framer then [.pktCapacity] else []

/-- The conditions an ADD meets. -/
def addConditions (s : State) : List ErrorCondition :=
  if s.fifo.collides s.cfg.rbSlots then [.fifoOverflow] else []

/-- The conditions a STEP meets. -/
def stepConditions (d : Word) (s : State) : List ErrorCondition :=
  (if classify s.cfg d = .bad then [.timingBad] else []) ++
  (if mismatched s.cls (classify s.cfg d) then [.timingMismatch] else []) ++
  (if s.cls = .longHalfSeen ∧ classify s.cfg d = .long then zeroConditions s else [])

/-- The conditions an operation meets in a state (60_exceptions.md R201, "detected by"). -/
def conditionsOf (i : Instr) (s : State) : List ErrorCondition :=
  match i with
  | .add _ => addConditions s
  | .get => []
  | .testclr => []
  | .step d => stepConditions d s
  | .one => []
  | .zero => zeroConditions s
  | .invalid => []
  | .edge _ => if s.front.valid then addConditions s else []
  | .ovfreset => []
  | .dbg _ => []
  | .reset => []

end Sys2Proof.Machine
end

