-- ==== Sys2Proof/Safety.lean ====
section
/-! DEFINITION. What a safe state is: the states runs stay in (10_state.md R41, 42_framer.md R147). -/

namespace Sys2Proof

open Sys2Proof.Machine

/-- Every emitted event carries 1 to PKT_BYTES bytes, as many as it says (42_framer.md R147). -/
abbrev PacketsWell (s : State) : Prop :=
  ∀ p ∈ s.out, 1 ≤ p.nbytes ∧ p.nbytes ≤ s.cfg.pktBytes ∧ p.bytes.length = p.nbytes

/-- The delta the consumer holds in SERVICE is a value of W_T bits. -/
abbrev ServiceFits (s : State) : Prop := ∀ d ∈ s.svc.held, Fits s.cfg.wT d

/-- A legal configuration, a state of 10_state.md R41, well-formed events and a well-formed consumer. -/
abbrev Safe (s : State) : Prop := s.cfg.Legal ∧ s.Valid ∧ PacketsWell s ∧ ServiceFits s

end Sys2Proof
end

