-- ==== Sys2Proof/Certificates/Slice0/Obligations.lean ====
section
/-! DEFINITION. The statements for the provers. Each names the rule of spec/ it formalises, or the sections and the
spec's own decision (92_eei_decisions.md) it rests on. Where a statement repeats an operation's encoding and issuing
agent (`IssuedAs`), that clause rests on the spec's decisions D2 and D19 (30_encoding.md R73). -/

open Sys2Proof Sys2Proof.Machine

/-! ### Encoding (30_encoding.md) -/

/-- Decoding the encoding of a well-formed operation gives it back, under every configuration. The encoding is the
spec's decision D2. -/
def Obligations.DecodeOfEncodeIsTheOperation : Prop :=
  ∀ (c : Config) (i : Instr), i.wellFormed c = true → decode c (encode i) = .ok i

/-- A word that decodes is the encoding of what it decodes to, which is well formed: no operand bit is dropped and no
two words stand for one operation. The encoding is the spec's decision D2. -/
def Obligations.DecodedWordIsTheEncoding : Prop :=
  ∀ (c : Config) (w : CommandWord) (i : Instr),
    decode c w = .ok i → i.wellFormed c = true ∧ encode i = w

/-- Exactly the reserved words are refused, each by its reason (R74, R75, R76; the refusals are decision D22). -/
def Obligations.ReservedWordsAreRefusedByReason : Prop :=
  ∀ (c : Config) (w : CommandWord),
    (decode c w = .error .reservedOpcode ↔ ((opcodeOf w).toNat = 0x00 ∨ 0x0C ≤ (opcodeOf w).toNat)) ∧
    (decode c w = .error .reservedOperand ↔
      (((opcodeOf w).toNat ∈ [0x01, 0x04, 0x08] ∧ 2 ^ c.wT ≤ (operandOf w).toNat) ∨
       ((opcodeOf w).toNat ∈ [0x02, 0x03, 0x05, 0x06, 0x07, 0x09, 0x0B] ∧ operandOf w ≠ 0))) ∧
    (decode c w = .error .debugIndex ↔ ((opcodeOf w).toNat = 0x0A ∧ 2 ≤ (operandOf w).toNat))

/-- The words of R82 decode as its table says, in the default configuration. -/
def Obligations.ExampleWordsDecode : Prop :=
  decode Config.default 0x010000003A#40 = .ok (.add 58) ∧
  decode Config.default 0x0200000000#40 = .ok .get ∧
  decode Config.default 0x0300000000#40 = .ok .testclr ∧
  decode Config.default 0x0400000064#40 = .ok (.step 100) ∧
  decode Config.default 0x0500000000#40 = .ok .one ∧
  decode Config.default 0x0600000000#40 = .ok .zero ∧
  decode Config.default 0x0700000000#40 = .ok .invalid ∧
  decode Config.default 0x08000003E8#40 = .ok (.edge 1000) ∧
  decode Config.default 0x0900000000#40 = .ok .ovfreset ∧
  decode Config.default 0x0A00000001#40 = .ok (.dbg 1) ∧
  decode Config.default 0x0B00000000#40 = .ok .reset ∧
  decode Config.default 0x0A00000002#40 = .error .debugIndex ∧
  decode Config.default 0x0C00000000#40 = .error .reservedOpcode ∧
  decode Config.default 0x0500000001#40 = .error .reservedOperand

/-! ### Ring buffer (40_fifo.md) -/

/-- ADD (R100): the delta goes into `mem[wr]`; if the advanced write cursor meets the read cursor both cursors go to 0
and `full` is set, otherwise the write cursor advances. Nothing else of the block changes and there is no response.
What becomes of the model's own history of written slots is left open here (`WrittenSlotsAreThoseSinceResetOrOverflow`
says it). -/
def Obligations.AddStoresOrOverflows : Prop :=
  ∀ (d : Word) (s : State), Fits s.cfg.wT d → s.fifo.wr < s.cfg.rbSlots →
    IssuedAs (.add d) 0x01 d .producer ∧
    ∃ h : List Nat, exec (.add d) s = .next { s with
      fifo :=
        if (s.fifo.wr + 1) % s.cfg.rbSlots = s.fifo.rd then
          { mem := Memory.write s.fifo.mem s.fifo.wr d, wr := 0, rd := 0, full := true, written := h }
        else
          { mem := Memory.write s.fifo.mem s.fifo.wr d, wr := (s.fifo.wr + 1) % s.cfg.rbSlots,
            rd := s.fifo.rd, full := s.fifo.full, written := h } }

/-- GET (R101): the value at the read cursor when the cursors differ and no overflow is latched, the read cursor
advancing; otherwise the empty response and no change. -/
def Obligations.GetReturnsOldestOrEmpty : Prop :=
  ∀ s : State,
    IssuedAs .get 0x02 0 .consumer ∧
    (s.fifo.rd ≠ s.fifo.wr → s.fifo.full = false → s.fifo.rd < s.cfg.rbSlots →
      exec .get s = .next { s with
        fifo := { s.fifo with rd := (s.fifo.rd + 1) % s.cfg.rbSlots },
        resps := s.resps ++ [.get (some (Memory.read s.fifo.mem s.fifo.rd))] }) ∧
    (s.fifo.rd = s.fifo.wr ∨ s.fifo.full = true →
      exec .get s = .next { s with resps := s.resps ++ [.get none] })

/-- TESTCLR (R102): the value `full` held is returned and `full` is cleared; `wr`, `rd` and `mem` do not change, and a
second TESTCLR returns 0. -/
def Obligations.TestclrReturnsAndClearsFull : Prop :=
  ∀ s : State,
    IssuedAs .testclr 0x03 0 .consumer ∧
    exec .testclr s = .next { s with
      fifo := { s.fifo with full := false }, resps := s.resps ++ [.testclr s.fifo.full] } ∧
    execAll [.testclr, .testclr] s = .next { s with
      fifo := { s.fifo with full := false }, resps := s.resps ++ [.testclr s.fifo.full, .testclr false] }

/-- The buffer is a queue of at most RB_CAP values that an ADD beyond RB_CAP empties (R60, R61): ADD appends, GET takes
the oldest, TESTCLR keeps the values. -/
def Obligations.RingBufferIsALossyQueue : Prop :=
  ∀ s : State, s.cfg.Legal → s.Valid →
    s.queue.length ≤ s.cfg.rbCap ∧
    (∀ d : Word, Fits s.cfg.wT d → ∃ t, exec (.add d) s = .next t ∧
      (s.queue.length < s.cfg.rbCap → t.queue = s.queue ++ [d] ∧ t.fifo.full = s.fifo.full) ∧
      (s.queue.length = s.cfg.rbCap → t.queue = [] ∧ t.fifo.full = true)) ∧
    (∀ (d : Word) (ds : List Word), s.fifo.full = false → s.queue = d :: ds → ∃ t, exec .get s = .next t ∧
      t.queue = ds ∧ t.resps = s.resps ++ [.get (some d)] ∧ t.fifo.full = false) ∧
    ((s.queue = [] ∨ s.fifo.full = true) → ∃ t, exec .get s = .next t ∧
      t.queue = s.queue ∧ t.resps = s.resps ++ [.get none] ∧ t.fifo.full = s.fifo.full) ∧
    (∃ t, exec .testclr s = .next t ∧ t.queue = s.queue)

/-- Usable capacity (R103): from an empty buffer with `full = 0`, up to RB_SLOTS − 1 ADDs are all held, and the
RB_SLOTS-th overflows; the number of buffered values is `(wr − rd) mod RB_SLOTS`. -/
def Obligations.BufferHoldsOneLessThanItsSlots : Prop :=
  ∀ (s : State) (ds : List Word), s.cfg.Legal → s.Valid → s.fifo.full = false → s.fifo.wr = s.fifo.rd →
    (∀ d ∈ ds, Fits s.cfg.wT d) →
    (ds.length ≤ s.cfg.rbSlots - 1 → ∃ t, execAll (ds.map .add) s = .next t ∧ t.fifo.full = false ∧
      t.queue = ds ∧ t.queue.length = (t.fifo.wr + s.cfg.rbSlots - t.fifo.rd) % s.cfg.rbSlots) ∧
    (ds.length = s.cfg.rbSlots → ∃ t, execAll (ds.map .add) s = .next t ∧ t.fifo.full = true ∧
      t.fifo.wr = 0 ∧ t.fifo.rd = 0 ∧ t.queue = [])

/-- FIFO order (R104): from an empty buffer with `full = 0`, ADDs of at most RB_CAP values with GETs interleaved, then
GETs until one returns empty, return exactly the added values in order. -/
def Obligations.AddedValuesReturnInOrder : Prop :=
  ∀ (s : State) (ops : List Instr), s.cfg.Legal → s.Valid → s.fifo.full = false → s.fifo.wr = s.fifo.rd →
    (∀ i ∈ ops, i = .get ∨ ∃ d, Fits s.cfg.wT d ∧ i = .add d) →
    (added ops).length ≤ s.cfg.rbCap →
    ∃ t, execAll (ops ++ List.replicate ((added ops).length + 1) .get) s = .next t ∧
      gotten t.resps = gotten s.resps ++ added ops ∧ t.resps.getLast? = some (.get none)

/-- Overflow (R105): after RB_CAP ADDs and one more, GET returns empty, the first TESTCLR returns 1, GET still returns
empty, and every later TESTCLR returns 0. -/
def Obligations.OverflowIsReportedOnce : Prop :=
  ∀ (s : State) (ds : List Word) (n : Nat), s.cfg.Legal → s.Valid → s.fifo.full = false → s.fifo.wr = s.fifo.rd →
    (∀ d ∈ ds, Fits s.cfg.wT d) → ds.length = s.cfg.rbCap + 1 →
    ∃ t, execAll (ds.map .add ++ [.get, .testclr, .get] ++ List.replicate n .testclr) s = .next t ∧
      t.resps = s.resps ++ [.get none, .testclr true, .get none] ++ List.replicate n (.testclr false)

/-- Values added while the flag is latched are held (R106): GET returns empty until a TESTCLR, and then they are
returned in order. -/
def Obligations.ReadsAreHeldWhileFull : Prop :=
  ∀ (s : State) (ds : List Word), s.cfg.Legal → s.Valid → s.fifo.full = true → s.fifo.wr = s.fifo.rd →
    (∀ d ∈ ds, Fits s.cfg.wT d) → ds.length ≤ s.cfg.rbCap →
    ∃ t, execAll (ds.map .add ++ [.get, .testclr] ++ List.replicate ds.length .get) s = .next t ∧
      t.resps = s.resps ++ [.get none, .testclr true] ++ ds.map (fun d => .get (some d))

/-- The latched flag (R25): an overflowing ADD sets it (EDGE performs ADD), TESTCLR and RESET clear it and nothing else
does, and while it is set every GET returns empty. -/
def Obligations.FullIsLatched : Prop :=
  ∀ (i : Instr) (s t : State), exec i s = .next t →
    (s.fifo.full = false → t.fifo.full = true →
      ((∃ d, i = .add d) ∨ (∃ u, i = .edge u ∧ s.front.valid = true)) ∧
      (s.fifo.wr + 1) % s.cfg.rbSlots = s.fifo.rd) ∧
    (((∃ d, i = .add d) ∨ (∃ u, i = .edge u ∧ s.front.valid = true)) →
      (s.fifo.wr + 1) % s.cfg.rbSlots = s.fifo.rd → t.fifo.full = true) ∧
    (i = .testclr ∨ i = .reset → t.fifo.full = false) ∧
    (s.fifo.full = true → t.fifo.full = false → i = .testclr ∨ i = .reset) ∧
    (s.fifo.full = true → i = .get → t = { s with resps := s.resps ++ [.get none] })

/-! ### Classifier (41_classifier.md) -/

/-- Classify (R120): both windows are closed (the spec's decision D5), they never overlap in a legal configuration, and
0 is BAD. -/
def Obligations.ClassifyIsTheClosedWindows : Prop :=
  ∀ (c : Config) (d : Word), c.Legal →
    (classify c d = .short ↔ c.shortMin ≤ d.toNat ∧ d.toNat ≤ c.shortMax) ∧
    (classify c d = .long ↔ c.longMin ≤ d.toNat ∧ d.toNat ≤ c.longMax) ∧
    (classify c d = .bad ↔ ¬ (c.shortMin ≤ d.toNat ∧ d.toNat ≤ c.shortMax) ∧
      ¬ (c.longMin ≤ d.toNat ∧ d.toNat ≤ c.longMax)) ∧
    classify c 0 = .bad

/-- STEP (R122): it always answers, counts in `dbg[1]`, and follows the transition table: a first half is stored, a
matching pair performs ONE or ZERO, anything else performs INVALID, in the same atomic step; a delta of 0 is BAD. -/
def Obligations.StepPairsHalves : Prop :=
  ∀ (d : Word) (s : State), s.cfg.Legal → s.Valid → Fits s.cfg.wT d →
    let counted (k : Cls) : State := { s with cls := k, dbg := { s.dbg with dbg1 := s.dbg.dbg1 + 1 } }
    IssuedAs (.step d) 0x04 d .consumer ∧
    (∃ t, exec (.step d) s = .next t ∧ t.dbg.dbg0 = s.dbg.dbg0 ∧ t.dbg.dbg1 = s.dbg.dbg1 + 1 ∧
      t.fifo = s.fifo ∧ t.front = s.front ∧ t.resps = s.resps) ∧
    classify s.cfg 0 = .bad ∧
    (s.cls = .awaitFirstHalf → classify s.cfg d = .short →
      exec (.step d) s = .next (counted .shortHalfSeen)) ∧
    (s.cls = .awaitFirstHalf → classify s.cfg d = .long →
      exec (.step d) s = .next (counted .longHalfSeen)) ∧
    (s.cls = .awaitFirstHalf → classify s.cfg d = .bad →
      exec (.step d) s = exec .invalid (counted .awaitFirstHalf)) ∧
    (s.cls = .shortHalfSeen → classify s.cfg d = .short →
      exec (.step d) s = exec .one (counted .awaitFirstHalf)) ∧
    (s.cls = .shortHalfSeen → classify s.cfg d ≠ .short →
      exec (.step d) s = exec .invalid (counted .awaitFirstHalf)) ∧
    (s.cls = .longHalfSeen → classify s.cfg d = .long →
      exec (.step d) s = exec .zero (counted .awaitFirstHalf)) ∧
    (s.cls = .longHalfSeen → classify s.cfg d ≠ .long →
      exec (.step d) s = exec .invalid (counted .awaitFirstHalf))

/-- A run of STEPs has the effect on the framer and on `out` of the bit events of its deltas, leaves `cls` as the
pairing does, counts every STEP, and touches no FIFO field (R122, R126). -/
def Obligations.StepsActAsTheirBitEvents : Prop :=
  ∀ (s : State) (ds : List Word), s.cfg.Legal → s.Valid → (∀ d ∈ ds, Fits s.cfg.wT d) →
    ∃ t u, execAll (ds.map .step) s = .next t ∧
      execAll ((bitEvents s.cfg s.cls ds).2.map BitEvent.instr) s = .next u ∧
      t.framer = u.framer ∧ t.out = u.out ∧ t.cls = (bitEvents s.cfg s.cls ds).1 ∧
      t.dbg.dbg1 = s.dbg.dbg1 + BitVec.ofNat 32 ds.length ∧ t.fifo = s.fifo

/-- Output count (R123): over any run of STEPs the framer events performed and the STEPs that moved `cls` from
AWAIT_FIRST_HALF to a half-seen state are together the STEPs performed. -/
def Obligations.EventsAreStepsLessFirstHalves : Prop :=
  ∀ (s : State) (ds : List Word), s.cfg.Legal → s.Valid → (∀ d ∈ ds, Fits s.cfg.wT d) →
    (∃ t, execAll (ds.map .step) s = .next t) ∧
    (bitEvents s.cfg s.cls ds).2.length + firstHalfMoves ds s = ds.length

/-! ### Framer (42_framer.md) -/

/-- ONE (R144): in PREAMBLE it counts, saturating; in DATA it adds a 1 to the current byte, or, as the 9th bit, emits
PKT and resets the framer. That the wait for the 9th bit is a flag (`await_stop`) and that the reset zeroes the packet's
bytes are the spec's decisions D9 and D11. -/
def Obligations.OneCountsAddsOrEndsThePacket : Prop :=
  ∀ s : State, s.cfg.Legal →
    IssuedAs .one 0x05 0 .consumer ∧
    (s.framer.frm = .preamble →
      exec .one s = .next { s with
        framer := { s.framer with pcnt := BitVec.ofNat 8 (min (s.framer.pcnt.toNat + 1) s.cfg.pcntMax) } }) ∧
    (s.framer.frm = .data → s.framer.awaitStop = false → s.framer.bitCount.toNat < 8 * s.cfg.pktBytes →
      exec .one s = .next { s with
        framer := { s.framer with
          pkt := s.framer.pkt.modify (s.framer.bitCount.toNat / 8) (fun x => (x <<< 1) ||| 1#8)
          bitCount := s.framer.bitCount + 1
          awaitStop := decide ((s.framer.bitCount.toNat + 1) % 8 = 0) } }) ∧
    (s.framer.frm = .data → s.framer.awaitStop = true →
      exec .one s = .next { s with
        out := s.out ++ [{ bytes := s.framer.pkt.take (s.framer.bitCount.toNat / 8),
                           nbytes := s.framer.bitCount.toNat / 8 }]
        framer := { frm := .preamble, awaitStop := false, pcnt := 0,
                    pkt := List.replicate s.cfg.pktBytes 0, bitCount := 0 } })

/-- ZERO (R145): in PREAMBLE it starts DATA exactly after MIN_PREAMBLE ones and clears the counter; in DATA it adds a 0
to the current byte, or, as the 9th bit, lets the next byte follow, or resets the framer when PKT_BYTES bytes are in
(that last case is the spec's decision D10; the flag `await_stop` and the zeroed bytes are D9 and D11). -/
def Obligations.ZeroStartsAddsOrContinues : Prop :=
  ∀ s : State, s.cfg.Legal →
    IssuedAs .zero 0x06 0 .consumer ∧
    (s.framer.frm = .preamble → s.framer.pcnt.toNat < s.cfg.minPreamble →
      exec .zero s = .next { s with framer := { s.framer with pcnt := 0 } }) ∧
    (s.framer.frm = .preamble → s.cfg.minPreamble ≤ s.framer.pcnt.toNat →
      exec .zero s = .next { s with framer := { s.framer with frm := .data, pcnt := 0 } }) ∧
    (s.framer.frm = .data → s.framer.awaitStop = false → s.framer.bitCount.toNat < 8 * s.cfg.pktBytes →
      exec .zero s = .next { s with
        framer := { s.framer with
          pkt := s.framer.pkt.modify (s.framer.bitCount.toNat / 8) (fun x => x <<< 1)
          bitCount := s.framer.bitCount + 1
          awaitStop := decide ((s.framer.bitCount.toNat + 1) % 8 = 0) } }) ∧
    (s.framer.frm = .data → s.framer.awaitStop = true → s.framer.bitCount.toNat < 8 * s.cfg.pktBytes →
      exec .zero s = .next { s with framer := { s.framer with awaitStop := false } }) ∧
    (s.framer.frm = .data → s.framer.awaitStop = true → s.framer.bitCount.toNat = 8 * s.cfg.pktBytes →
      exec .zero s = .next { s with
        framer := { frm := .preamble, awaitStop := false, pcnt := 0,
                    pkt := List.replicate s.cfg.pktBytes 0, bitCount := 0 } })

/-- INVALID (R146): from any state the framer is back in PREAMBLE with an empty packet, one or more times over, and
nothing else changes (that a direct INVALID leaves `cls` is the spec's decision D16). -/
def Obligations.InvalidResetsTheFramerOnly : Prop :=
  ∀ (s : State) (n : Nat),
    IssuedAs .invalid 0x07 0 .consumer ∧
    execAll (List.replicate (n + 1) .invalid) s = .next { s with
      framer := { frm := .preamble, awaitStop := false, pcnt := 0,
                  pkt := List.replicate s.cfg.pktBytes 0, bitCount := 0 } }

/-- MSB first (R53): eight data bits from a byte boundary leave the byte whose bit 7 came first and whose bit 0 came
eighth in the byte they fill, and the other bytes as they were; the 9th bit is then awaited (the spec's decision D9,
R143). -/
def Obligations.DataBitsFillAByteMsbFirst : Prop :=
  ∀ (s : State) (b7 b6 b5 b4 b3 b2 b1 b0 : Bool), s.cfg.Legal → s.Valid →
    s.framer.frm = .data → s.framer.awaitStop = false → s.framer.bitCount.toNat % 8 = 0 →
    ∃ t x, execAll ([b7, b6, b5, b4, b3, b2, b1, b0].map bitInstr) s = .next t ∧
      t.framer.pkt = s.framer.pkt.set (s.framer.bitCount.toNat / 8) x ∧
      byteBits x = [b7, b6, b5, b4, b3, b2, b1, b0] ∧
      t.framer.bitCount.toNat = s.framer.bitCount.toNat + 8 ∧ t.framer.awaitStop = true ∧
      t.framer.frm = .data ∧ t.out = s.out

/-- Preamble counting (R149): n ONEs from a cleared counter leave min(n, PCNT_MAX), and a ZERO after them enters DATA
exactly when n is at least MIN_PREAMBLE. -/
def Obligations.PreambleNeedsTheMinimumOfOnes : Prop :=
  ∀ (s : State) (n : Nat), s.cfg.Legal → s.Valid → s.framer.frm = .preamble → s.framer.pcnt = 0 →
    (∃ t, execAll (List.replicate n .one) s = .next t ∧
      t.framer.pcnt.toNat = min n s.cfg.pcntMax ∧ t.framer.frm = .preamble) ∧
    (∃ t, execAll (List.replicate n .one ++ [.zero]) s = .next t ∧
      t.framer.pcnt = 0 ∧ (t.framer.frm = .data ↔ s.cfg.minPreamble ≤ n) ∧ t.framer.bitCount = 0)

/-- A framed packet is delivered (R54): a sufficient preamble, the start bit, and 1 to PKT_BYTES bytes in 9-bit groups
emit exactly one PKT with those bytes in reception order, and the framer is back at its reset state (R143, R147, the
spec's decisions D8, D9, D11, D12). -/
def Obligations.FramedPacketIsDelivered : Prop :=
  ∀ (s : State) (n : Nat) (bytes : List Byte), s.cfg.Legal → s.Valid →
    s.framer.frm = .preamble → s.framer.pcnt = 0 → s.cfg.minPreamble ≤ n →
    1 ≤ bytes.length → bytes.length ≤ s.cfg.pktBytes →
    execAll (List.replicate n .one ++ [.zero] ++ (packetBits bytes).map bitInstr) s = .next { s with
      out := s.out ++ [{ bytes := bytes, nbytes := bytes.length }]
      framer := { frm := .preamble, awaitStop := false, pcnt := 0,
                  pkt := List.replicate s.cfg.pktBytes 0, bitCount := 0 } }

/-- Capacity overflow (R148, the spec's decision D10): a continuation 0 after PKT_BYTES bytes emits no PKT and leaves
the framer at its reset state. -/
def Obligations.PacketBeyondCapacityIsDropped : Prop :=
  ∀ (s : State) (n : Nat) (bytes : List Byte), s.cfg.Legal → s.Valid →
    s.framer.frm = .preamble → s.framer.pcnt = 0 → s.cfg.minPreamble ≤ n → bytes.length = s.cfg.pktBytes →
    execAll (List.replicate n .one ++ [.zero] ++ (continuedBits bytes).map bitInstr) s = .next { s with
      framer := { frm := .preamble, awaitStop := false, pcnt := 0,
                  pkt := List.replicate s.cfg.pktBytes 0, bitCount := 0 } }

/-- A framed packet's half-pulses, each within its window, are decoded to that packet (R122, R143, R147): the deltas of
a sufficient preamble, the start bit and 1 to PKT_BYTES bytes emit exactly one PKT with those bytes. -/
def Obligations.PacketIsDecodedFromItsHalves : Prop :=
  ∀ (s : State) (n : Nat) (bytes : List Byte) (ps : List (Word × Word)), s.cfg.Legal → s.Valid →
    s.cls = .awaitFirstHalf → s.framer.frm = .preamble → s.framer.pcnt = 0 → s.cfg.minPreamble ≤ n →
    1 ≤ bytes.length → bytes.length ≤ s.cfg.pktBytes →
    List.Forall₂ (HalvesOf s.cfg) (List.replicate n true ++ [false] ++ packetBits bytes) ps →
    (∀ p ∈ ps, Fits s.cfg.wT p.1 ∧ Fits s.cfg.wT p.2) →
    ∃ t, execAll (stepsOf ps) s = .next t ∧
      t.out = s.out ++ [{ bytes := bytes, nbytes := bytes.length }] ∧
      t.framer = Framer.initial s.cfg ∧ t.cls = .awaitFirstHalf

/-- A PKT is emitted only by the 9th bit 1 of a group (R147), by ONE or by a STEP that completes a short pair; every
other operation but RESET leaves `out` as it was, and no operation but RESET takes an event away. -/
def Obligations.PacketsComeOnlyFromAnEndBit : Prop :=
  ∀ (i : Instr) (s t : State), exec i s = .next t → i ≠ .reset →
    t.out = s.out ∨
    (s.framer.frm = .data ∧ s.framer.awaitStop = true ∧
      (i = .one ∨ ∃ d, i = .step d ∧ s.cls = .shortHalfSeen ∧ classify s.cfg d = .short) ∧
      t.out = s.out ++ [{ bytes := s.framer.pkt.take (s.framer.bitCount.toNat / 8),
                          nbytes := s.framer.bitCount.toNat / 8 }] ∧
      t.framer.frm = .preamble ∧ t.framer.pcnt = 0)

/-- `bitCount` never falls but to 0 (R31): "monotonically non-decreasing while assembling". -/
def Obligations.BitCountFallsOnlyToZero : Prop :=
  ∀ (i : Instr) (s t : State), s.cfg.Legal → s.Valid → exec i s = .next t →
    s.framer.bitCount.toNat ≤ t.framer.bitCount.toNat ∨ t.framer.bitCount = 0

/-! ### Front-end, recovery, debug, reset (43_control.md) -/

/-- EDGE (R170, with the spec's decisions D13 and D14): it counts in `dbg[0]` and remembers the time; the first edge
pushes nothing, every other one performs ADD of the delta modulo 2^W_T. -/
def Obligations.EdgePushesTheDelta : Prop :=
  ∀ (u : Word) (s : State), s.cfg.Legal → Fits s.cfg.wT u → Fits s.cfg.wT s.front.prev →
    s.fifo.wr < s.cfg.rbSlots →
    IssuedAs (.edge u) 0x08 u .producer ∧
    (s.front.valid = false →
      exec (.edge u) s = .next { s with
        front := { prev := u, valid := true }, dbg := { s.dbg with dbg0 := s.dbg.dbg0 + 1 } }) ∧
    (s.front.valid = true →
      ∃ d t, d.toNat = (u.toNat + 2 ^ s.cfg.wT - s.front.prev.toNat) % 2 ^ s.cfg.wT ∧
        exec (.add d) s = .next t ∧
        exec (.edge u) s = .next { t with
          front := { prev := u, valid := true }, dbg := { s.dbg with dbg0 := s.dbg.dbg0 + 1 } })

/-- OVFRESET (R171, the spec's decision D15): classifier and framer are reset, and nothing else changes. -/
def Obligations.OvfresetResetsClassifierAndFramer : Prop :=
  ∀ s : State,
    IssuedAs .ovfreset 0x09 0 .consumer ∧
    exec .ovfreset s = .next { s with
      cls := .awaitFirstHalf
      framer := { frm := .preamble, awaitStop := false, pcnt := 0,
                  pkt := List.replicate s.cfg.pktBytes 0, bitCount := 0 } }

/-- DBG (R172, the spec's decision D14): counter 0 or 1 is returned and nothing else changes; an index of 2 or more is
refused (R76). -/
def Obligations.DbgReturnsTheCounter : Prop :=
  ∀ (idx : Word) (s : State),
    IssuedAs (.dbg idx) 0x0A idx .consumer ∧
    (idx = 0 → exec (.dbg idx) s = .next { s with resps := s.resps ++ [.dbg s.dbg.dbg0] }) ∧
    (idx = 1 → exec (.dbg idx) s = .next { s with resps := s.resps ++ [.dbg s.dbg.dbg1] }) ∧
    (2 ≤ idx.toNat → exec (.dbg idx) s = .refused .debugIndex)

/-- RESET (R173, the spec's decision D17): every field takes its reset value and `mem` keeps its contents; an illegal
configuration is refused (R232). What is not the block's stays as it was (log entry
10), and the model's history of written slots starts anew (log entry 17). -/
def Obligations.ResetClearsTheBlock : Prop :=
  ∀ s : State,
    IssuedAs .reset 0x0B 0 .host ∧
    (s.cfg.Legal →
      exec .reset s = .next { s with
        fifo := { s.fifo with wr := 0, rd := 0, full := false, written := [] }
        cls := .awaitFirstHalf
        framer := { frm := .preamble, awaitStop := false, pcnt := 0,
                    pkt := List.replicate s.cfg.pktBytes 0, bitCount := 0 }
        front := { prev := 0, valid := false }
        dbg := { dbg0 := 0, dbg1 := 0 }
        out := [] }) ∧
    (¬ s.cfg.Legal → exec .reset s = .refused .badConfig)

/-- Without RESET, `dbg[0]` has counted the EDGEs and `dbg[1]` the STEPs of any run of operations, modulo 2^32
(R33, R44, the spec's decision D14). -/
def Obligations.DebugCountersCountEdgesAndSteps : Prop :=
  ∀ (ops : List Instr) (s t : State), execAll ops s = .next t → .reset ∉ ops →
    t.dbg.dbg0 = s.dbg.dbg0 + BitVec.ofNat 32 (ops.countP isEdge) ∧
    t.dbg.dbg1 = s.dbg.dbg1 + BitVec.ofNat 32 (ops.countP isStep)

/-- The debug counters are no part of decoding (R33): with other counter values every operation but DBG answers the
same in everything but the counters. -/
def Obligations.DebugCountersDoNotAffectDecoding : Prop :=
  ∀ (i : Instr) (s t : State) (d : DebugCounters), isDbg i = false → exec i s = .next t →
    ∃ t', exec i { s with dbg := d } = .next t' ∧ { t' with dbg := t.dbg } = t

/-! ### Frames (10_state.md R35, R38, R43) -/

/-- Which operations may change which field (the matrix of R35): whatever an operation that answers changes, it is one
that R35 lets write the field. No operation changes the configuration (R38), the consumer's position or the events to
come; those and the history of written slots are the model's own fields (log entries 2, 3 and 17). -/
def Obligations.OnlyTheNamedOperationsWriteAField : Prop :=
  ∀ (i : Instr) (s t : State), exec i s = .next t →
    (t.fifo.mem ≠ s.fifo.mem → (∃ d, i = .add d) ∨ ∃ u, i = .edge u) ∧
    (t.fifo.wr ≠ s.fifo.wr → (∃ d, i = .add d) ∨ (∃ u, i = .edge u) ∨ i = .reset) ∧
    (t.fifo.rd ≠ s.fifo.rd → (∃ d, i = .add d) ∨ i = .get ∨ (∃ u, i = .edge u) ∨ i = .reset) ∧
    (t.fifo.full ≠ s.fifo.full → (∃ d, i = .add d) ∨ i = .testclr ∨ (∃ u, i = .edge u) ∨ i = .reset) ∧
    (t.cls ≠ s.cls → (∃ d, i = .step d) ∨ i = .ovfreset ∨ i = .reset) ∧
    (t.framer ≠ s.framer →
      (∃ d, i = .step d) ∨ i = .one ∨ i = .zero ∨ i = .invalid ∨ i = .ovfreset ∨ i = .reset) ∧
    (t.front ≠ s.front → (∃ u, i = .edge u) ∨ i = .reset) ∧
    (t.dbg.dbg0 ≠ s.dbg.dbg0 → (∃ u, i = .edge u) ∨ i = .reset) ∧
    (t.dbg.dbg1 ≠ s.dbg.dbg1 → (∃ d, i = .step d) ∨ i = .reset) ∧
    (t.out ≠ s.out → (∃ d, i = .step d) ∨ i = .one ∨ i = .zero ∨ i = .reset) ∧
    (t.resps ≠ s.resps → i = .get ∨ i = .testclr ∨ ∃ idx, i = .dbg idx) ∧
    (t.fifo.written ≠ s.fifo.written → (∃ d, i = .add d) ∨ (∃ u, i = .edge u) ∨ i = .reset) ∧
    t.cfg = s.cfg ∧ t.svc = s.svc ∧ t.sched = s.sched ∧ t.later = s.later

/-- FIFO storage frame, from any state whose storage list has its canonical form (log entry 5): only the slot at the
write cursor of an ADD, or of an EDGE that pushes a delta, changes, and it then reads as the value stored; every other
slot reads as before (R22, R51). -/
def Obligations.OnlyTheStoredSlotChanges : Prop :=
  ∀ (i : Instr) (s t : State), Memory.wf s.fifo.mem → exec i s = .next t →
    (∀ j, storedSlot i s ≠ some j → Memory.read t.fifo.mem j = Memory.read s.fifo.mem j) ∧
    (∀ d, i = .add d → Memory.read t.fifo.mem s.fifo.wr = d) ∧
    (∀ u, i = .edge u → s.front.valid = true →
      Memory.read t.fifo.mem s.fifo.wr = timeDelta s.cfg u s.front.prev)

/-- Frame of ADD, GET and TESTCLR: they touch no field but the ring buffer's and the responses; ADD returns nothing. -/
def Obligations.FifoOperationsTouchOnlyTheBuffer : Prop :=
  ∀ (i : Instr) (s t : State), (∃ d, i = .add d) ∨ i = .get ∨ i = .testclr → exec i s = .next t →
    t.cls = s.cls ∧ t.framer = s.framer ∧ t.front = s.front ∧ t.dbg = s.dbg ∧ t.out = s.out ∧
    t.cfg = s.cfg ∧ t.svc = s.svc ∧ t.sched = s.sched ∧ t.later = s.later ∧
    ((∃ d, i = .add d) → t.resps = s.resps) ∧
    (i = .get → t.fifo.mem = s.fifo.mem ∧ t.fifo.wr = s.fifo.wr ∧ t.fifo.full = s.fifo.full ∧
      t.fifo.written = s.fifo.written) ∧
    (i = .testclr → t.fifo.mem = s.fifo.mem ∧ t.fifo.wr = s.fifo.wr ∧ t.fifo.rd = s.fifo.rd ∧
      t.fifo.written = s.fifo.written)

/-- Frame of the consumer's decoding operations STEP, ONE, ZERO, INVALID and OVFRESET: they belong to the consumer, touch
no FIFO field, no front-end field, not `dbg[0]`, and return nothing (R126, R151, for OVFRESET R171 and the spec's
decision D15; whose they are is D19; that a direct INVALID leaves `cls` is D16; the consumer's position and the events to
come are the model's own fields, log entries 2 and 3). -/
def Obligations.DecodingOperationsTouchNoSharedField : Prop :=
  ∀ (i : Instr) (s t : State),
    (∃ d, i = .step d) ∨ i = .one ∨ i = .zero ∨ i = .invalid ∨ i = .ovfreset → exec i s = .next t →
    i.agent = .consumer ∧
    t.fifo = s.fifo ∧ t.front = s.front ∧ t.dbg.dbg0 = s.dbg.dbg0 ∧ t.resps = s.resps ∧
    t.cfg = s.cfg ∧ t.svc = s.svc ∧ t.sched = s.sched ∧ t.later = s.later ∧
    ((∀ d, i ≠ .step d) → t.dbg = s.dbg) ∧
    (i = .one ∨ i = .zero ∨ i = .invalid → t.cls = s.cls)

/-- Frame of EDGE: it touches neither the classifier nor the framer, not `dbg[1]`, not the read cursor unless its push
overflows (the advanced write cursor meets the read cursor), and returns nothing. -/
def Obligations.EdgeTouchesOnlyTheProducerSide : Prop :=
  ∀ (u : Word) (s t : State), exec (.edge u) s = .next t →
    t.cls = s.cls ∧ t.framer = s.framer ∧ t.out = s.out ∧ t.resps = s.resps ∧ t.dbg.dbg1 = s.dbg.dbg1 ∧
    t.cfg = s.cfg ∧ t.svc = s.svc ∧ t.sched = s.sched ∧ t.later = s.later ∧
    (t.fifo.rd = s.fifo.rd ∨
      (s.front.valid = true ∧ (s.fifo.wr + 1) % s.cfg.rbSlots = s.fifo.rd ∧ t.fifo.rd = 0 ∧ t.fifo.full = true)) ∧
    (s.front.valid = false → t.fifo = s.fifo)

/-! ### Invariants (10_state.md R40 to R42) -/

/-- The state after reset (R40, the spec's decision D17; the default configuration and the model's own fields are log
entries 1 to 5 and 17) is safe, under every legal configuration. -/
def Obligations.ResetStateIsSafe : Prop :=
  Safe State.reset ∧
  (∀ c : Config, c.Legal → Safe (State.resetWith c)) ∧
  (∀ c : Config, c.Legal →
    let s := State.resetWith c
    s.fifo.wr = 0 ∧ s.fifo.rd = 0 ∧ s.fifo.full = false ∧ s.cls = .awaitFirstHalf ∧
    s.framer.frm = .preamble ∧ s.framer.awaitStop = false ∧ s.framer.pcnt = 0 ∧
    s.framer.pkt = List.replicate c.pktBytes 0 ∧ s.framer.bitCount = 0 ∧
    s.front.prev = 0 ∧ s.front.valid = false ∧ s.dbg.dbg0 = 0 ∧ s.dbg.dbg1 = 0 ∧ s.out = [])

/-- INV1 to INV9 and the well-formedness of what a state holds are kept by every step, from every state that meets them
(R41). -/
def Obligations.EveryStepKeepsTheInvariants : Prop :=
  ∀ s t : State, Safe s → step s = .next t → Safe t

/-- Every well-formed operation answers a next state from every valid state (R200: no operation stops the block), and
the next state is valid (R41, which the spec derives from its rules). -/
def Obligations.EveryOperationCompletes : Prop :=
  ∀ (i : Instr) (s : State), s.cfg.Legal → s.Valid → i.wellFormed s.cfg = true →
    ∃ t, exec i s = .next t ∧ t.Valid

/-- FIFO storage stays in its canonical form under every operation, from any state in which it has it (log entry 5). -/
def Obligations.StorageStaysCanonical : Prop :=
  ∀ (i : Instr) (s t : State), Memory.wf s.fifo.mem → exec i s = .next t → Memory.wf t.fifo.mem

/-- A cursor of a legal configuration fits in W_IDX bits (R8), the preamble counter never passes PCNT_MAX and the packet
never holds more bits than its bytes (R41), after any operation from a valid state. -/
def Obligations.CountersStayInTheirWidths : Prop :=
  ∀ (i : Instr) (s t : State), s.cfg.Legal → s.Valid → exec i s = .next t →
    t.fifo.wr < 2 ^ t.cfg.wIdx ∧ t.fifo.rd < 2 ^ t.cfg.wIdx ∧
    t.framer.pcnt.toNat ≤ t.cfg.pcntMax ∧ t.framer.bitCount.toNat ≤ 8 * t.cfg.pktBytes ∧
    (t.framer.frm = .data → t.framer.pcnt = 0)

/-! ### Steps and refusals -/

/-- A step runs the decoded operation: when the next event is an operation's encoding presented by the agent that may
issue it, the step is that operation on the state whose schedule has moved past the event. -/
def Obligations.StepRunsTheDecodedOperation : Prop :=
  ∀ (s : State) (w : CommandWord) (i : Instr) (rest : List Event), s.cfg.Legal → s.Valid →
    s.sched = .command i.agent w :: rest → decode s.cfg w = .ok i →
    step s = exec i { s with sched := rest }

/-- With nothing presented the block holds its state (R215, R125). -/
def Obligations.IdleBlockHoldsItsState : Prop :=
  ∀ s : State, s.cfg.Legal → s.Valid → s.sched = [] → (s.later = .quiet ∨ s.later = .again []) → step s = .next s

/-- A word without a meaning, or one presented by an agent that may not issue it, stops the step by its reason (R74 to
R76, R78, the spec's decision D22). -/
def Obligations.RefusedCommandsStopTheStep : Prop :=
  ∀ (s : State) (a : Agent) (w : CommandWord) (rest : List Event), s.cfg.Legal → s.Valid →
    s.sched = .command a w :: rest →
    (decode s.cfg w = .error .reservedOpcode → step s = .refused .reservedOpcode) ∧
    (decode s.cfg w = .error .reservedOperand → step s = .refused .reservedOperand) ∧
    (decode s.cfg w = .error .debugIndex → step s = .refused .debugIndex) ∧
    (∀ i, decode s.cfg w = .ok i → i.agent ≠ a → step s = .refused .wrongAgent)

/-- An illegal configuration has no run (R232) and a state that breaks an invariant is not stepped from (R42): the step
is refused, BadConfig or BadState (the spec's decision D22, log entries 6 and 7). -/
def Obligations.IllegalStatesAreNotSteppedFrom : Prop :=
  ∀ s : State,
    (¬ s.cfg.Legal → step s = .refused .badConfig) ∧
    (s.cfg.Legal → s.cls = .code3 → step s = .refused .badState) ∧
    (s.cfg.Legal → ¬ s.Valid → step s = .refused .badState)

/-! ### SERVICE and the pipeline (43_control.md R174 to R177) -/

/-- SERVICE (R174): GET at the top of the loop, STEP of the value it returned and back, TESTCLR after an empty GET,
OVFRESET when TESTCLR returned 1, and the end otherwise; each event is one atomic operation, and none is refused. -/
def Obligations.ServiceFollowsItsLoop : Prop :=
  ∀ (s : State) (rest : List Event), Safe s → s.sched = .service :: rest →
    let s' : State := { s with sched := rest }
    ((s.svc = .idle ∨ s.svc = .loop) →
      ∃ t r, exec .get s' = .next t ∧ t.resps = s.resps ++ [.get r] ∧
        step s = .next { t with svc := match r with
          | some d => .step d
          | none => .testclr }) ∧
    (∀ d, s.svc = .step d → ∃ t, exec (.step d) s' = .next t ∧ step s = .next { t with svc := .loop }) ∧
    (s.svc = .testclr →
      ∃ t, exec .testclr s' = .next t ∧
        step s = .next { t with svc := if s.fifo.full then .ovfreset else .idle }) ∧
    (s.svc = .ovfreset → ∃ t, exec .ovfreset s' = .next t ∧ step s = .next { t with svc := .idle })

/-- With the producer quiet SERVICE ends (the premise R175 asks for): after two operations per buffered value and two
more, or, when an overflow is latched, after GET, TESTCLR and OVFRESET. -/
def Obligations.ServiceEndsWhenTheProducerIsQuiet : Prop :=
  ∀ s : State, Safe s → s.svc = .idle →
    (s.fifo.full = false →
      ∃ t, Host.Core.run Sys2Proof.core (2 * s.queue.length + 2)
          { s with sched := List.replicate (2 * s.queue.length + 2) .service } = .next t ∧
        t.svc = .idle ∧ t.queue = [] ∧ t.sched = [] ∧ t.fifo.full = false ∧
        t.dbg.dbg1 = s.dbg.dbg1 + BitVec.ofNat 32 s.queue.length) ∧
    (s.fifo.full = true →
      ∃ t, Host.Core.run Sys2Proof.core 3 { s with sched := List.replicate 3 .service } = .next t ∧
        t.svc = .idle ∧ t.queue = s.queue ∧ t.sched = [] ∧ t.fifo.full = false ∧
        t.cls = .awaitFirstHalf ∧ t.framer = Framer.initial s.cfg ∧ t.out = s.out)

/-- Order through SERVICE (R61, R177): a step of SERVICE classifies the oldest delta not yet classified or moves none,
and an edge that does not overflow appends its delta. -/
def Obligations.ServiceClassifiesDeltasInOrder : Prop :=
  ∀ s t : State, Safe s → step s = .next t →
    (∀ d rest, s.sched = .service :: rest → s.svc = .step d →
      s.backlog = d :: t.backlog ∧ exec (.step d) { s with sched := rest } = .next { t with svc := s.svc }) ∧
    (∀ rest, s.sched = .service :: rest → (∀ d, s.svc ≠ .step d) → t.backlog = s.backlog) ∧
    (∀ u rest, s.sched = edgeEvent u :: rest → Fits s.cfg.wT u → s.front.valid = false → t.backlog = s.backlog) ∧
    (∀ u rest, s.sched = edgeEvent u :: rest → Fits s.cfg.wT u → s.front.valid = true →
      (s.fifo.wr + 1) % s.cfg.rbSlots ≠ s.fifo.rd →
      t.backlog = s.backlog ++ [timeDelta s.cfg u s.front.prev])

/-- While an overflow is latched SERVICE classifies nothing until it has performed OVFRESET (R205, R234), whatever the
producer does in between: its next three operations are GET (empty), TESTCLR and OVFRESET. -/
def Obligations.OverflowIsRecoveredBeforeClassifying : Prop :=
  ∀ (s t : State) (es : List Event), Safe s → s.svc = .idle ∨ s.svc = .loop → s.fifo.full = true →
    (∀ e ∈ es, e = .service ∨ ∃ i, ((∃ d, i = Instr.add d) ∨ ∃ u, i = Instr.edge u) ∧
      i.wellFormed s.cfg = true ∧ e = .command .producer (encode i)) →
    es.count .service = 3 →
    Host.Core.run Sys2Proof.core es.length { s with sched := es } = .next t →
    t.svc = .idle ∧ t.cls = .awaitFirstHalf ∧ t.framer = Framer.initial s.cfg ∧
    t.dbg.dbg1 = s.dbg.dbg1 ∧ t.out = s.out

/-- The whole pipeline (R177): edges and SERVICE events in any interleaving, no overflow (none latched at the end, none
reported by a TESTCLR), and nothing left to classify at the end: classifier, framer, `out` and the STEP count are those
of STEPping the buffered deltas and then the edges' deltas, in order. -/
def Obligations.PipelineIsTheDeltasInOrder : Prop :=
  ∀ (s t : State) (us : List Word) (es : List Event), Safe s → s.svc = .idle →
    (∀ u ∈ us, Fits s.cfg.wT u) →
    es.filter (fun e => e ≠ .service) = us.map edgeEvent →
    Host.Core.run Sys2Proof.core es.length { s with sched := es } = .next t →
    t.fifo.full = false → Response.testclr true ∉ t.resps.drop s.resps.length →
    t.backlog = [] →
    ∃ u, execAll ((s.queue ++ edgeDeltas s.cfg s.front us).map .step) s = .next u ∧
      t.out = u.out ∧ t.cls = u.cls ∧ t.framer = u.framer ∧ t.dbg.dbg1 = u.dbg.dbg1

/-! ### Error conditions (60_exceptions.md) -/

/-- Each error condition is signalled and recovered as R201 says (labels and codes are the spec's decision D23; what
counts as a mismatched pair is log entry 12): a timing condition resets framer and classifier, an overflow empties the
buffer and latches `full`, a capacity overflow resets the framer, and none of them emits a PKT. -/
def Obligations.ErrorConditionsAreRecoveredInPlace : Prop :=
  ∀ (i : Instr) (s t : State), s.cfg.Legal → s.Valid → exec i s = .next t →
    (.timingBad ∈ conditionsOf i s → t.cls = .awaitFirstHalf ∧ t.framer = Framer.initial s.cfg ∧ t.out = s.out) ∧
    (.timingMismatch ∈ conditionsOf i s →
      t.cls = .awaitFirstHalf ∧ t.framer = Framer.initial s.cfg ∧ t.out = s.out) ∧
    (.fifoOverflow ∈ conditionsOf i s → t.fifo.full = true ∧ t.fifo.wr = 0 ∧ t.fifo.rd = 0 ∧ t.queue = []) ∧
    (.pktCapacity ∈ conditionsOf i s → t.framer = Framer.initial s.cfg ∧ t.out = s.out) ∧
    (s.fifo.full = false → t.fifo.full = true → .fifoOverflow ∈ conditionsOf i s)

/-! ### Runs that do not end (43_control.md R175) -/

/-- When the listed events are over, the events of `later` follow: the same ones over and over, or free ones in any
order (log entry 2; of the free order nothing is stated but which value is taken next). -/
def Obligations.LaterEventsFollowTheList : Prop :=
  ∀ s : State, s.sched = [] →
    (∀ e es, s.later = .again (e :: es) → step s = step { s with sched := e :: es }) ∧
    (∀ n, s.later = .free n → step s = step { s with sched := [Config.freeEvent n], later := .free (n + 1) })

/-- SERVICE need not end (R175): with a producer that adds a value before each GET, the consumer is inside SERVICE after
every number of steps from the second on, and has taken one value and classified one in every three. -/
def Obligations.ServiceNeedNotEnd : Prop :=
  ∀ (s : State) (d : Word) (k : Nat), Safe s → s.svc = .idle → s.fifo.full = false → s.queue = [] →
    Fits s.cfg.wT d →
    ∃ t, Host.Core.run Sys2Proof.core (k + 2)
        { s with sched := [], later := .again [.command .producer (encode (.add d)), .service, .service] } = .next t ∧
      (t.svc = .loop ∨ t.svc = .step d) ∧
      t.resps = s.resps ++ List.replicate (k / 3 + 1) (.get (some d)) ∧
      t.dbg.dbg1 = s.dbg.dbg1 + BitVec.ofNat 32 ((k + 2) / 3)

/-! ### The history INV1 speaks of (10_state.md R41) -/

/-- The slots the model counts as written are those ADDs (EDGE's among them) have stored to since the last RESET or
overflow: a store without an overflow adds its slot, an overflow and RESET empty the count, and nothing else changes it
(the history is the model's own field, log entry 17; INV1 is the spec's derivation). -/
def Obligations.WrittenSlotsAreThoseSinceResetOrOverflow : Prop :=
  ∀ (i : Instr) (s t : State), exec i s = .next t →
    (∀ j, storedSlot i s = some j → (s.fifo.wr + 1) % s.cfg.rbSlots ≠ s.fifo.rd →
      ∀ k, k ∈ t.fifo.written ↔ k = j ∨ k ∈ s.fifo.written) ∧
    (∀ j, storedSlot i s = some j → (s.fifo.wr + 1) % s.cfg.rbSlots = s.fifo.rd → t.fifo.written = []) ∧
    (i = .reset → t.fifo.written = []) ∧
    (storedSlot i s = none → i ≠ .reset → t.fifo.written = s.fifo.written)
end

