-- ==== Sys2Proof/Laws/Decode.lean ====
section
/-! SUPPORT. The fields of a command word, and everything the operand forms of the decoder can do. -/

namespace Sys2Proof

theorem opcodeOf_append (o : BitVec 8) (d : Word) : opcodeOf (o ++ d) = o := by
  apply BitVec.eq_of_getLsbD_eq
  intro i hi
  simp only [opcodeOf, BitVec.getLsbD_extractLsb', hi, decide_true, Bool.true_and]
  refine (BitVec.getLsbD_append (x := o) (y := d)).trans ?_
  rw [if_neg (by omega), Nat.add_sub_cancel_left]

theorem operandOf_append (o : BitVec 8) (d : Word) : operandOf (o ++ d) = d := by
  apply BitVec.eq_of_getLsbD_eq
  intro i hi
  simp only [operandOf, BitVec.getLsbD_extractLsb', hi, decide_true, Bool.true_and]
  refine (BitVec.getLsbD_append (x := o) (y := d)).trans ?_
  rw [Nat.zero_add, if_pos hi]

/-- A command word is its two fields (30_encoding.md R70). -/
theorem fields_append (w : CommandWord) : (opcodeOf w ++ operandOf w : BitVec (8 + 32)) = w := by
  apply BitVec.eq_of_getLsbD_eq
  intro i hi
  rw [BitVec.getLsbD_append]
  split
  · next h => simp [operandOf, h]
  · next h =>
    have h8 : i - 32 < 8 := by omega
    simp only [opcodeOf, BitVec.getLsbD_extractLsb', h8, decide_true, Bool.true_and]
    congr 1; omega

theorem decodeTime_ok {c : Config} {d : Word} {mk : Word → Instr} {i : Instr} (h : decodeTime c d mk = .ok i) :
    Fits c.wT d ∧ i = mk d := by
  unfold decodeTime at h
  split at h
  · next hf => cases h; exact ⟨hf, rfl⟩
  · cases h

theorem decodeNone_ok {d : Word} {i j : Instr} (h : decodeNone d j = .ok i) : d = 0 ∧ i = j := by
  unfold decodeNone at h
  split at h
  · next hz => cases h; exact ⟨hz, rfl⟩
  · cases h

theorem decodeIdx_ok {d : Word} {i : Instr} (h : decodeIdx d = .ok i) : d.toNat < 2 ∧ i = .dbg d := by
  unfold decodeIdx at h
  split at h
  · next hl => cases h; exact ⟨hl, rfl⟩
  · cases h

end Sys2Proof
end

