-- ==== Sys2Proof/Laws/State.lean ====
section
/-! SUPPORT. What each update of the state does to each field, so that no later proof unfolds a record update. -/

namespace Sys2Proof.Machine.State

variable (s : State)

/-! `setFifo` -/

@[simp] theorem setFifo_cfg (q : Fifo) : (s.setFifo q).cfg = s.cfg := rfl
@[simp] theorem setFifo_fifo (q : Fifo) : (s.setFifo q).fifo = q := rfl
@[simp] theorem setFifo_cls (q : Fifo) : (s.setFifo q).cls = s.cls := rfl
@[simp] theorem setFifo_framer (q : Fifo) : (s.setFifo q).framer = s.framer := rfl
@[simp] theorem setFifo_front (q : Fifo) : (s.setFifo q).front = s.front := rfl
@[simp] theorem setFifo_dbg (q : Fifo) : (s.setFifo q).dbg = s.dbg := rfl
@[simp] theorem setFifo_out (q : Fifo) : (s.setFifo q).out = s.out := rfl
@[simp] theorem setFifo_resps (q : Fifo) : (s.setFifo q).resps = s.resps := rfl
@[simp] theorem setFifo_svc (q : Fifo) : (s.setFifo q).svc = s.svc := rfl
@[simp] theorem setFifo_sched (q : Fifo) : (s.setFifo q).sched = s.sched := rfl
@[simp] theorem setFifo_later (q : Fifo) : (s.setFifo q).later = s.later := rfl

/-! `setCls` -/

@[simp] theorem setCls_cfg (k : Cls) : (s.setCls k).cfg = s.cfg := rfl
@[simp] theorem setCls_fifo (k : Cls) : (s.setCls k).fifo = s.fifo := rfl
@[simp] theorem setCls_cls (k : Cls) : (s.setCls k).cls = k := rfl
@[simp] theorem setCls_framer (k : Cls) : (s.setCls k).framer = s.framer := rfl
@[simp] theorem setCls_front (k : Cls) : (s.setCls k).front = s.front := rfl
@[simp] theorem setCls_dbg (k : Cls) : (s.setCls k).dbg = s.dbg := rfl
@[simp] theorem setCls_out (k : Cls) : (s.setCls k).out = s.out := rfl
@[simp] theorem setCls_resps (k : Cls) : (s.setCls k).resps = s.resps := rfl
@[simp] theorem setCls_svc (k : Cls) : (s.setCls k).svc = s.svc := rfl
@[simp] theorem setCls_sched (k : Cls) : (s.setCls k).sched = s.sched := rfl
@[simp] theorem setCls_later (k : Cls) : (s.setCls k).later = s.later := rfl

/-! `setFramer` -/

@[simp] theorem setFramer_cfg (f : Framer) : (s.setFramer f).cfg = s.cfg := rfl
@[simp] theorem setFramer_fifo (f : Framer) : (s.setFramer f).fifo = s.fifo := rfl
@[simp] theorem setFramer_cls (f : Framer) : (s.setFramer f).cls = s.cls := rfl
@[simp] theorem setFramer_framer (f : Framer) : (s.setFramer f).framer = f := rfl
@[simp] theorem setFramer_front (f : Framer) : (s.setFramer f).front = s.front := rfl
@[simp] theorem setFramer_dbg (f : Framer) : (s.setFramer f).dbg = s.dbg := rfl
@[simp] theorem setFramer_out (f : Framer) : (s.setFramer f).out = s.out := rfl
@[simp] theorem setFramer_resps (f : Framer) : (s.setFramer f).resps = s.resps := rfl
@[simp] theorem setFramer_svc (f : Framer) : (s.setFramer f).svc = s.svc := rfl
@[simp] theorem setFramer_sched (f : Framer) : (s.setFramer f).sched = s.sched := rfl
@[simp] theorem setFramer_later (f : Framer) : (s.setFramer f).later = s.later := rfl

/-! `setFront` -/

@[simp] theorem setFront_cfg (e : FrontEnd) : (s.setFront e).cfg = s.cfg := rfl
@[simp] theorem setFront_fifo (e : FrontEnd) : (s.setFront e).fifo = s.fifo := rfl
@[simp] theorem setFront_cls (e : FrontEnd) : (s.setFront e).cls = s.cls := rfl
@[simp] theorem setFront_framer (e : FrontEnd) : (s.setFront e).framer = s.framer := rfl
@[simp] theorem setFront_front (e : FrontEnd) : (s.setFront e).front = e := rfl
@[simp] theorem setFront_dbg (e : FrontEnd) : (s.setFront e).dbg = s.dbg := rfl
@[simp] theorem setFront_out (e : FrontEnd) : (s.setFront e).out = s.out := rfl
@[simp] theorem setFront_resps (e : FrontEnd) : (s.setFront e).resps = s.resps := rfl
@[simp] theorem setFront_svc (e : FrontEnd) : (s.setFront e).svc = s.svc := rfl
@[simp] theorem setFront_sched (e : FrontEnd) : (s.setFront e).sched = s.sched := rfl
@[simp] theorem setFront_later (e : FrontEnd) : (s.setFront e).later = s.later := rfl

/-! `setDbg` -/

@[simp] theorem setDbg_cfg (d : DebugCounters) : (s.setDbg d).cfg = s.cfg := rfl
@[simp] theorem setDbg_fifo (d : DebugCounters) : (s.setDbg d).fifo = s.fifo := rfl
@[simp] theorem setDbg_cls (d : DebugCounters) : (s.setDbg d).cls = s.cls := rfl
@[simp] theorem setDbg_framer (d : DebugCounters) : (s.setDbg d).framer = s.framer := rfl
@[simp] theorem setDbg_front (d : DebugCounters) : (s.setDbg d).front = s.front := rfl
@[simp] theorem setDbg_dbg (d : DebugCounters) : (s.setDbg d).dbg = d := rfl
@[simp] theorem setDbg_out (d : DebugCounters) : (s.setDbg d).out = s.out := rfl
@[simp] theorem setDbg_resps (d : DebugCounters) : (s.setDbg d).resps = s.resps := rfl
@[simp] theorem setDbg_svc (d : DebugCounters) : (s.setDbg d).svc = s.svc := rfl
@[simp] theorem setDbg_sched (d : DebugCounters) : (s.setDbg d).sched = s.sched := rfl
@[simp] theorem setDbg_later (d : DebugCounters) : (s.setDbg d).later = s.later := rfl

/-! `setOut` -/

@[simp] theorem setOut_cfg (o : List Pkt) : (s.setOut o).cfg = s.cfg := rfl
@[simp] theorem setOut_fifo (o : List Pkt) : (s.setOut o).fifo = s.fifo := rfl
@[simp] theorem setOut_cls (o : List Pkt) : (s.setOut o).cls = s.cls := rfl
@[simp] theorem setOut_framer (o : List Pkt) : (s.setOut o).framer = s.framer := rfl
@[simp] theorem setOut_front (o : List Pkt) : (s.setOut o).front = s.front := rfl
@[simp] theorem setOut_dbg (o : List Pkt) : (s.setOut o).dbg = s.dbg := rfl
@[simp] theorem setOut_out (o : List Pkt) : (s.setOut o).out = o := rfl
@[simp] theorem setOut_resps (o : List Pkt) : (s.setOut o).resps = s.resps := rfl
@[simp] theorem setOut_svc (o : List Pkt) : (s.setOut o).svc = s.svc := rfl
@[simp] theorem setOut_sched (o : List Pkt) : (s.setOut o).sched = s.sched := rfl
@[simp] theorem setOut_later (o : List Pkt) : (s.setOut o).later = s.later := rfl

/-! `setSvc` -/

@[simp] theorem setSvc_cfg (p : ServicePoint) : (s.setSvc p).cfg = s.cfg := rfl
@[simp] theorem setSvc_fifo (p : ServicePoint) : (s.setSvc p).fifo = s.fifo := rfl
@[simp] theorem setSvc_cls (p : ServicePoint) : (s.setSvc p).cls = s.cls := rfl
@[simp] theorem setSvc_framer (p : ServicePoint) : (s.setSvc p).framer = s.framer := rfl
@[simp] theorem setSvc_front (p : ServicePoint) : (s.setSvc p).front = s.front := rfl
@[simp] theorem setSvc_dbg (p : ServicePoint) : (s.setSvc p).dbg = s.dbg := rfl
@[simp] theorem setSvc_out (p : ServicePoint) : (s.setSvc p).out = s.out := rfl
@[simp] theorem setSvc_resps (p : ServicePoint) : (s.setSvc p).resps = s.resps := rfl
@[simp] theorem setSvc_svc (p : ServicePoint) : (s.setSvc p).svc = p := rfl
@[simp] theorem setSvc_sched (p : ServicePoint) : (s.setSvc p).sched = s.sched := rfl
@[simp] theorem setSvc_later (p : ServicePoint) : (s.setSvc p).later = s.later := rfl

/-! `setSched` -/

@[simp] theorem setSched_cfg (es : List Event) : (s.setSched es).cfg = s.cfg := rfl
@[simp] theorem setSched_fifo (es : List Event) : (s.setSched es).fifo = s.fifo := rfl
@[simp] theorem setSched_cls (es : List Event) : (s.setSched es).cls = s.cls := rfl
@[simp] theorem setSched_framer (es : List Event) : (s.setSched es).framer = s.framer := rfl
@[simp] theorem setSched_front (es : List Event) : (s.setSched es).front = s.front := rfl
@[simp] theorem setSched_dbg (es : List Event) : (s.setSched es).dbg = s.dbg := rfl
@[simp] theorem setSched_out (es : List Event) : (s.setSched es).out = s.out := rfl
@[simp] theorem setSched_resps (es : List Event) : (s.setSched es).resps = s.resps := rfl
@[simp] theorem setSched_svc (es : List Event) : (s.setSched es).svc = s.svc := rfl
@[simp] theorem setSched_sched (es : List Event) : (s.setSched es).sched = es := rfl
@[simp] theorem setSched_later (es : List Event) : (s.setSched es).later = s.later := rfl

/-! `setLater` -/

@[simp] theorem setLater_cfg (l : Later) : (s.setLater l).cfg = s.cfg := rfl
@[simp] theorem setLater_fifo (l : Later) : (s.setLater l).fifo = s.fifo := rfl
@[simp] theorem setLater_cls (l : Later) : (s.setLater l).cls = s.cls := rfl
@[simp] theorem setLater_framer (l : Later) : (s.setLater l).framer = s.framer := rfl
@[simp] theorem setLater_front (l : Later) : (s.setLater l).front = s.front := rfl
@[simp] theorem setLater_dbg (l : Later) : (s.setLater l).dbg = s.dbg := rfl
@[simp] theorem setLater_out (l : Later) : (s.setLater l).out = s.out := rfl
@[simp] theorem setLater_resps (l : Later) : (s.setLater l).resps = s.resps := rfl
@[simp] theorem setLater_svc (l : Later) : (s.setLater l).svc = s.svc := rfl
@[simp] theorem setLater_sched (l : Later) : (s.setLater l).sched = s.sched := rfl
@[simp] theorem setLater_later (l : Later) : (s.setLater l).later = l := rfl

/-! `respond` -/

@[simp] theorem respond_cfg (r : Response) : (s.respond r).cfg = s.cfg := rfl
@[simp] theorem respond_fifo (r : Response) : (s.respond r).fifo = s.fifo := rfl
@[simp] theorem respond_cls (r : Response) : (s.respond r).cls = s.cls := rfl
@[simp] theorem respond_framer (r : Response) : (s.respond r).framer = s.framer := rfl
@[simp] theorem respond_front (r : Response) : (s.respond r).front = s.front := rfl
@[simp] theorem respond_dbg (r : Response) : (s.respond r).dbg = s.dbg := rfl
@[simp] theorem respond_out (r : Response) : (s.respond r).out = s.out := rfl
@[simp] theorem respond_resps (r : Response) : (s.respond r).resps = s.resps ++ [r] := rfl
@[simp] theorem respond_svc (r : Response) : (s.respond r).svc = s.svc := rfl
@[simp] theorem respond_sched (r : Response) : (s.respond r).sched = s.sched := rfl
@[simp] theorem respond_later (r : Response) : (s.respond r).later = s.later := rfl

/-! `emit` -/

@[simp] theorem emit_cfg (p : Option Pkt) : (s.emit p).cfg = s.cfg := rfl
@[simp] theorem emit_fifo (p : Option Pkt) : (s.emit p).fifo = s.fifo := rfl
@[simp] theorem emit_cls (p : Option Pkt) : (s.emit p).cls = s.cls := rfl
@[simp] theorem emit_framer (p : Option Pkt) : (s.emit p).framer = s.framer := rfl
@[simp] theorem emit_front (p : Option Pkt) : (s.emit p).front = s.front := rfl
@[simp] theorem emit_dbg (p : Option Pkt) : (s.emit p).dbg = s.dbg := rfl
@[simp] theorem emit_out (p : Option Pkt) : (s.emit p).out = s.out ++ p.toList := rfl
@[simp] theorem emit_resps (p : Option Pkt) : (s.emit p).resps = s.resps := rfl
@[simp] theorem emit_svc (p : Option Pkt) : (s.emit p).svc = s.svc := rfl
@[simp] theorem emit_sched (p : Option Pkt) : (s.emit p).sched = s.sched := rfl
@[simp] theorem emit_later (p : Option Pkt) : (s.emit p).later = s.later := rfl

/-! `countEdge` -/

@[simp] theorem countEdge_cfg : s.countEdge.cfg = s.cfg := rfl
@[simp] theorem countEdge_fifo : s.countEdge.fifo = s.fifo := rfl
@[simp] theorem countEdge_cls : s.countEdge.cls = s.cls := rfl
@[simp] theorem countEdge_framer : s.countEdge.framer = s.framer := rfl
@[simp] theorem countEdge_front : s.countEdge.front = s.front := rfl
@[simp] theorem countEdge_dbg : s.countEdge.dbg = { s.dbg with dbg0 := s.dbg.dbg0 + 1 } := rfl
@[simp] theorem countEdge_out : s.countEdge.out = s.out := rfl
@[simp] theorem countEdge_resps : s.countEdge.resps = s.resps := rfl
@[simp] theorem countEdge_svc : s.countEdge.svc = s.svc := rfl
@[simp] theorem countEdge_sched : s.countEdge.sched = s.sched := rfl
@[simp] theorem countEdge_later : s.countEdge.later = s.later := rfl

/-! `countStep` -/

@[simp] theorem countStep_cfg : s.countStep.cfg = s.cfg := rfl
@[simp] theorem countStep_fifo : s.countStep.fifo = s.fifo := rfl
@[simp] theorem countStep_cls : s.countStep.cls = s.cls := rfl
@[simp] theorem countStep_framer : s.countStep.framer = s.framer := rfl
@[simp] theorem countStep_front : s.countStep.front = s.front := rfl
@[simp] theorem countStep_dbg : s.countStep.dbg = { s.dbg with dbg1 := s.dbg.dbg1 + 1 } := rfl
@[simp] theorem countStep_out : s.countStep.out = s.out := rfl
@[simp] theorem countStep_resps : s.countStep.resps = s.resps := rfl
@[simp] theorem countStep_svc : s.countStep.svc = s.svc := rfl
@[simp] theorem countStep_sched : s.countStep.sched = s.sched := rfl
@[simp] theorem countStep_later : s.countStep.later = s.later := rfl

/-! `frmReset` -/

@[simp] theorem frmReset_cfg : s.frmReset.cfg = s.cfg := rfl
@[simp] theorem frmReset_fifo : s.frmReset.fifo = s.fifo := rfl
@[simp] theorem frmReset_cls : s.frmReset.cls = s.cls := rfl
@[simp] theorem frmReset_framer : s.frmReset.framer = s.framer.frmReset s.cfg := rfl
@[simp] theorem frmReset_front : s.frmReset.front = s.front := rfl
@[simp] theorem frmReset_dbg : s.frmReset.dbg = s.dbg := rfl
@[simp] theorem frmReset_out : s.frmReset.out = s.out := rfl
@[simp] theorem frmReset_resps : s.frmReset.resps = s.resps := rfl
@[simp] theorem frmReset_svc : s.frmReset.svc = s.svc := rfl
@[simp] theorem frmReset_sched : s.frmReset.sched = s.sched := rfl
@[simp] theorem frmReset_later : s.frmReset.later = s.later := rfl

/-! `rememberEdge` and `resetBlock` -/

@[simp] theorem rememberEdge_cfg (t : Word) : (rememberEdge t s).cfg = s.cfg := rfl
@[simp] theorem rememberEdge_fifo (t : Word) : (rememberEdge t s).fifo = s.fifo := rfl
@[simp] theorem rememberEdge_cls (t : Word) : (rememberEdge t s).cls = s.cls := rfl
@[simp] theorem rememberEdge_framer (t : Word) : (rememberEdge t s).framer = s.framer := rfl
@[simp] theorem rememberEdge_front (t : Word) : (rememberEdge t s).front = { prev := t, valid := true } := rfl
@[simp] theorem rememberEdge_dbg (t : Word) : (rememberEdge t s).dbg = s.dbg := rfl
@[simp] theorem rememberEdge_out (t : Word) : (rememberEdge t s).out = s.out := rfl
@[simp] theorem rememberEdge_resps (t : Word) : (rememberEdge t s).resps = s.resps := rfl
@[simp] theorem rememberEdge_svc (t : Word) : (rememberEdge t s).svc = s.svc := rfl
@[simp] theorem rememberEdge_sched (t : Word) : (rememberEdge t s).sched = s.sched := rfl
@[simp] theorem rememberEdge_later (t : Word) : (rememberEdge t s).later = s.later := rfl
@[simp] theorem resetBlock_cfg : (resetBlock s).cfg = s.cfg := rfl
@[simp] theorem resetBlock_fifo : (resetBlock s).fifo = s.fifo.restart := rfl
@[simp] theorem resetBlock_cls : (resetBlock s).cls = .awaitFirstHalf := rfl
@[simp] theorem resetBlock_framer : (resetBlock s).framer = s.framer.frmReset s.cfg := rfl
@[simp] theorem resetBlock_front : (resetBlock s).front = { prev := 0, valid := false } := rfl
@[simp] theorem resetBlock_dbg : (resetBlock s).dbg = { dbg0 := 0, dbg1 := 0 } := rfl
@[simp] theorem resetBlock_out : (resetBlock s).out = [] := rfl
@[simp] theorem resetBlock_resps : (resetBlock s).resps = s.resps := rfl
@[simp] theorem resetBlock_svc : (resetBlock s).svc = s.svc := rfl
@[simp] theorem resetBlock_sched : (resetBlock s).sched = s.sched := rfl
@[simp] theorem resetBlock_later : (resetBlock s).later = s.later := rfl

end Sys2Proof.Machine.State
end

