-- ==== Sys2Proof/Laws/Memory.lean ====
section
/-! SUPPORT. FIFO storage: a read after a write, and the canonical form. -/

namespace Sys2Proof.Machine.Memory

/-- A list whose slots are all beyond `i` says nothing of slot `i`. -/
theorem read_of_lt {m : Memory} {i : Nat} (h : ∀ p ∈ m, i < p.1) : Memory.read m i = Memory.unwritten := by
  induction m with
  | nil => rfl
  | cons p m ih =>
    obtain ⟨j, u⟩ := p
    have hj : i < j := h (j, u) (List.mem_cons_self ..)
    rw [Memory.read, if_neg (by omega)]
    exact ih fun p hp => h p (List.mem_cons_of_mem _ hp)

/-- An entry is read, given that the list behind it says nothing of its slot. -/
theorem read_entry_same {m : Memory} {i : Nat} (h : Memory.read m i = Memory.unwritten) (v : Word) :
    Memory.read (Memory.entry i v m) i = v := by
  unfold Memory.entry
  split
  · next hv => rw [h, hv]
  · simp [Memory.read]

theorem read_entry_other (m : Memory) {i j : Nat} (v : Word) (h : j ≠ i) :
    Memory.read (Memory.entry i v m) j = Memory.read m j := by
  unfold Memory.entry
  split
  · rfl
  · simp [Memory.read, h]

theorem mem_entry {m : Memory} {i : Nat} {v : Word} {p : Nat × Word} (h : p ∈ Memory.entry i v m) :
    p = (i, v) ∨ p ∈ m := by
  unfold Memory.entry at h
  split at h
  · exact .inr h
  · exact List.mem_cons.1 h

/-- An entry ahead of a canonical list of later slots keeps the form. -/
theorem entry_wf {m : Memory} (h : Memory.wf m) {i : Nat} (hi : ∀ p ∈ m, i < p.1) (v : Word) :
    Memory.wf (Memory.entry i v m) := by
  unfold Memory.entry
  split
  · exact h
  · next hv =>
    refine ⟨List.pairwise_cons.2 ⟨hi, h.1⟩, fun p hp => ?_⟩
    rcases List.mem_cons.1 hp with rfl | hp
    · exact hv
    · exact h.2 p hp

/-- The first slot of a canonical list comes before the others, which are a canonical list. -/
theorem wf_cons {j : Nat} {u : Word} {m : Memory} (h : Memory.wf ((j, u) :: m)) :
    (∀ p ∈ m, j < p.1) ∧ u ≠ Memory.unwritten ∧ Memory.wf m := by
  obtain ⟨hj, hm⟩ := List.pairwise_cons.1 h.1
  exact ⟨hj, h.2 (j, u) (List.mem_cons_self ..), hm, fun p hp => h.2 p (List.mem_cons_of_mem _ hp)⟩

/-- Every entry of a written memory is the new one or an old one. -/
theorem mem_write {m : Memory} {i : Nat} {v : Word} {p : Nat × Word} (h : p ∈ Memory.write m i v) :
    p = (i, v) ∨ p ∈ m := by
  induction m with
  | nil => exact mem_entry h
  | cons q m ih =>
    obtain ⟨k, u⟩ := q
    simp only [Memory.write] at h
    split at h
    · exact mem_entry h
    · split at h
      · exact (mem_entry h).imp id (List.mem_cons_of_mem _)
      · rcases List.mem_cons.1 h with h | h
        · exact .inr (h ▸ List.mem_cons_self ..)
        · exact (ih h).imp id (List.mem_cons_of_mem _)

theorem read_write_same {m : Memory} (h : Memory.wf m) (i : Nat) (v : Word) :
    Memory.read (Memory.write m i v) i = v := by
  induction m with
  | nil => exact read_entry_same rfl v
  | cons p m ih =>
    obtain ⟨j, u⟩ := p
    obtain ⟨hj, -, hm⟩ := wf_cons h
    simp only [Memory.write]
    split
    · next hlt =>
      refine read_entry_same (read_of_lt fun p hp => ?_) v
      rcases List.mem_cons.1 hp with rfl | hp
      · exact hlt
      · exact Nat.lt_trans hlt (hj p hp)
    · split
      · next heq => subst heq; exact read_entry_same (read_of_lt hj) v
      · next hne => rw [Memory.read, if_neg hne]; exact ih hm

theorem read_write_other (m : Memory) {i j : Nat} (v : Word) (h : j ≠ i) :
    Memory.read (Memory.write m i v) j = Memory.read m j := by
  induction m with
  | nil => exact read_entry_other [] v h
  | cons p m ih =>
    obtain ⟨k, u⟩ := p
    simp only [Memory.write]
    split
    · exact read_entry_other _ v h
    · split
      · next heq => subst heq; rw [read_entry_other _ v h, Memory.read, if_neg h]
      · simp only [Memory.read, ih]

/-- Every write keeps the canonical form. -/
theorem write_wf {m : Memory} (h : Memory.wf m) (i : Nat) (v : Word) : Memory.wf (Memory.write m i v) := by
  induction m with
  | nil => exact entry_wf h (by simp) v
  | cons q m ih =>
    obtain ⟨k, u⟩ := q
    obtain ⟨hk, hu, hm⟩ := wf_cons h
    simp only [Memory.write]
    split
    · next hlt =>
      refine entry_wf h (fun p hp => ?_) v
      rcases List.mem_cons.1 hp with rfl | hp
      · exact hlt
      · exact Nat.lt_trans hlt (hk p hp)
    · split
      · next heq => subst heq; exact entry_wf hm hk v
      · next hge hne =>
        refine ⟨List.pairwise_cons.2 ⟨fun p hp => ?_, (ih hm).1⟩, fun p hp => ?_⟩
        · rcases mem_write hp with rfl | hp
          · simp only; omega
          · exact hk p hp
        · rcases List.mem_cons.1 hp with rfl | hp
          · exact hu
          · exact (ih hm).2 p hp

/-- What a slot holds is what a slot holds before any ADD, or it is an entry. -/
theorem read_cases (m : Memory) (i : Nat) :
    Memory.read m i = Memory.unwritten ∨ (i, Memory.read m i) ∈ m := by
  induction m with
  | nil => exact .inl rfl
  | cons q m ih =>
    obtain ⟨k, u⟩ := q
    simp only [Memory.read]
    split
    · next heq => exact .inr (heq ▸ List.mem_cons_self ..)
    · exact ih.imp id (List.mem_cons_of_mem _)

/-- A slot of a storage of W_T-bit values holds a value of W_T bits. -/
theorem read_fits {m : Memory} {n : Nat} (h : ∀ p ∈ m, Fits n p.2) (i : Nat) : Fits n (Memory.read m i) := by
  rcases read_cases m i with hi | hi
  · rw [hi]; exact Nat.pow_pos (by omega)
  · exact h _ hi

/-- The storage after reset has the canonical form, and every slot of it holds what an unwritten slot holds. -/
theorem reset_wf (c : Config) : Memory.wf (State.resetWith c).fifo.mem := ⟨List.Pairwise.nil, nofun⟩

theorem reset_read (c : Config) (i : Nat) : Memory.read (State.resetWith c).fifo.mem i = Memory.unwritten := rfl

end Sys2Proof.Machine.Memory
end

