-- ==== Sys2Proof/Laws/Fifo.lean ====
section
/-! SUPPORT. The ring buffer: everything ADD's and GET's operations can do, and the cursor arithmetic. -/

namespace Sys2Proof.Machine

@[simp] theorem Fifo.store_mem (d : Word) (q : Fifo) : (q.store d).mem = Memory.write q.mem q.wr d := rfl
@[simp] theorem Fifo.store_wr (d : Word) (q : Fifo) : (q.store d).wr = q.wr := rfl
@[simp] theorem Fifo.store_rd (d : Word) (q : Fifo) : (q.store d).rd = q.rd := rfl
@[simp] theorem Fifo.store_full (d : Word) (q : Fifo) : (q.store d).full = q.full := rfl
@[simp] theorem Fifo.store_written (d : Word) (q : Fifo) : (q.store d).written = q.written.insert q.wr := rfl
@[simp] theorem Fifo.overflow_mem (q : Fifo) : q.overflow.mem = q.mem := rfl
@[simp] theorem Fifo.overflow_wr (q : Fifo) : q.overflow.wr = 0 := rfl
@[simp] theorem Fifo.overflow_rd (q : Fifo) : q.overflow.rd = 0 := rfl
@[simp] theorem Fifo.overflow_full (q : Fifo) : q.overflow.full = true := rfl
@[simp] theorem Fifo.overflow_written (q : Fifo) : q.overflow.written = [] := rfl
@[simp] theorem Fifo.clearFull_mem (q : Fifo) : q.clearFull.mem = q.mem := rfl
@[simp] theorem Fifo.clearFull_wr (q : Fifo) : q.clearFull.wr = q.wr := rfl
@[simp] theorem Fifo.clearFull_rd (q : Fifo) : q.clearFull.rd = q.rd := rfl
@[simp] theorem Fifo.clearFull_full (q : Fifo) : q.clearFull.full = false := rfl
@[simp] theorem Fifo.clearFull_written (q : Fifo) : q.clearFull.written = q.written := rfl
@[simp] theorem Fifo.restart_mem (q : Fifo) : q.restart.mem = q.mem := rfl
@[simp] theorem Fifo.restart_wr (q : Fifo) : q.restart.wr = 0 := rfl
@[simp] theorem Fifo.restart_rd (q : Fifo) : q.restart.rd = 0 := rfl
@[simp] theorem Fifo.restart_full (q : Fifo) : q.restart.full = false := rfl
@[simp] theorem Fifo.restart_written (q : Fifo) : q.restart.written = [] := rfl

theorem nextSlot_lt {n i : Nat} (h : i < n) : nextSlot n i < n := Nat.mod_lt _ (by omega)

/-- The cursor's advance without a remainder. -/
theorem nextSlot_eq {n i : Nat} (h : i < n) : nextSlot n i = if i + 1 = n then 0 else i + 1 := by
  unfold nextSlot
  split
  · next h' => simp [h']
  · exact Nat.mod_eq_of_lt (by omega)

/-- The number of buffered values without a remainder. -/
theorem Fifo.count_eq {n : Nat} {q : Fifo} (hw : q.wr < n) (hr : q.rd < n) :
    q.count n = if q.rd ≤ q.wr then q.wr - q.rd else q.wr + n - q.rd := by
  unfold Fifo.count
  split
  · next h =>
    rw [show q.wr + n - q.rd = q.wr - q.rd + n by omega, Nat.add_mod_right]
    exact Nat.mod_eq_of_lt (by omega)
  · exact Nat.mod_eq_of_lt (by omega)

/-- The k-th buffered slot without a remainder. -/
theorem Fifo.slotAt_eq {n : Nat} {q : Fifo} {k : Nat} (hr : q.rd < n) (hk : k < n) :
    q.slotAt n k = if q.rd + k < n then q.rd + k else q.rd + k - n := by
  unfold Fifo.slotAt
  split
  · next h => exact Nat.mod_eq_of_lt h
  · rw [Nat.mod_eq_sub_mod (by omega)]
    exact Nat.mod_eq_of_lt (by omega)

theorem Fifo.collides_iff (n : Nat) (q : Fifo) : q.collides n = true ↔ nextSlot n q.wr = q.rd := by
  simp [Fifo.collides]

/-- A collision is a buffer that holds RB_SLOTS − 1 values (40_fifo.md R100, R103). -/
theorem Fifo.collides_iff_count {n : Nat} {q : Fifo} (hw : q.wr < n) (hr : q.rd < n) :
    q.collides n = true ↔ q.count n = n - 1 := by
  rw [Fifo.collides_iff, nextSlot_eq hw, Fifo.count_eq hw hr]
  split <;> split <;> omega

theorem Fifo.readable_iff (q : Fifo) : q.readable = true ↔ q.rd ≠ q.wr ∧ q.full = false := by
  simp [Fifo.readable]

/-- Everything ADD's operation does when it answers (40_fifo.md R100). -/
theorem Fifo.add_cases {n : Nat} {d : Word} {q q' : Fifo} (h : q.add n d = some q') :
    q.wr < n ∧
    ((nextSlot n q.wr = q.rd ∧
      q' = { mem := Memory.write q.mem q.wr d, wr := 0, rd := 0, full := true, written := [] }) ∨
     (nextSlot n q.wr ≠ q.rd ∧
      q' = { mem := Memory.write q.mem q.wr d, wr := nextSlot n q.wr, rd := q.rd, full := q.full,
             written := q.written.insert q.wr })) := by
  unfold Fifo.add at h
  split at h
  · next hw =>
    refine ⟨hw, ?_⟩
    split at h
    · next hc => exact .inl ⟨(Fifo.collides_iff n q).1 hc, (Option.some.inj h).symm⟩
    · next hc => exact .inr ⟨fun he => hc ((Fifo.collides_iff n q).2 he), (Option.some.inj h).symm⟩
  · cases h

/-- ADD's operation answers whenever the write cursor names a slot. -/
theorem Fifo.add_answers {n : Nat} {q : Fifo} (h : q.wr < n) (d : Word) : ∃ q', q.add n d = some q' := by
  unfold Fifo.add
  rw [if_pos h]
  split <;> exact ⟨_, rfl⟩

/-- Everything GET's operation does when it answers (40_fifo.md R101). -/
theorem Fifo.get_cases {n : Nat} {q q' : Fifo} {v : Option Word} (h : q.get n = some (q', v)) :
    ((q.rd ≠ q.wr ∧ q.full = false) ∧ q.rd < n ∧ v = some (Memory.read q.mem q.rd) ∧
      q' = { mem := q.mem, wr := q.wr, rd := nextSlot n q.rd, full := q.full, written := q.written }) ∨
    (¬ (q.rd ≠ q.wr ∧ q.full = false) ∧ v = none ∧ q' = q) := by
  unfold Fifo.get at h
  split at h
  · next hr =>
    split at h
    · next hn =>
      simp only [Option.some.injEq, Prod.mk.injEq] at h
      exact .inl ⟨(Fifo.readable_iff q).1 hr, hn, h.2.symm, h.1.symm⟩
    · cases h
  · next hr =>
    simp only [Option.some.injEq, Prod.mk.injEq] at h
    exact .inr ⟨fun hc => hr ((Fifo.readable_iff q).2 hc), h.2.symm, h.1.symm⟩

end Sys2Proof.Machine
end

