-- ==== Sys2Proof/Laws/Framer.lean ====
section
/-! SUPPORT. The framer: the fields of its operations, the bit arithmetic, and everything `FrmBit` can do. -/

namespace Sys2Proof.Machine

@[simp] theorem Framer.frmReset_frm (c : Config) (f : Framer) : (f.frmReset c).frm = .preamble := rfl
@[simp] theorem Framer.frmReset_awaitStop (c : Config) (f : Framer) : (f.frmReset c).awaitStop = false := rfl
@[simp] theorem Framer.frmReset_pcnt (c : Config) (f : Framer) : (f.frmReset c).pcnt = 0 := rfl
@[simp] theorem Framer.frmReset_pkt (c : Config) (f : Framer) :
    (f.frmReset c).pkt = List.replicate c.pktBytes 0 := rfl
@[simp] theorem Framer.frmReset_bitCount (c : Config) (f : Framer) : (f.frmReset c).bitCount = 0 := rfl
@[simp] theorem Framer.addBit_frm (b : Bool) (f : Framer) : (f.addBit b).frm = f.frm := rfl
@[simp] theorem Framer.addBit_awaitStop (b : Bool) (f : Framer) : (f.addBit b).awaitStop = f.awaitStop := rfl
@[simp] theorem Framer.addBit_pcnt (b : Bool) (f : Framer) : (f.addBit b).pcnt = f.pcnt := rfl
@[simp] theorem Framer.addBit_pkt (b : Bool) (f : Framer) :
    (f.addBit b).pkt = f.pkt.modify f.byteIndex (shiftIn b) := rfl
@[simp] theorem Framer.addBit_bitCount (b : Bool) (f : Framer) : (f.addBit b).bitCount = f.bitCount + 1 := rfl

/-- The framing reset leaves the framer as RESET does, whatever it held (42_framer.md R142). -/
theorem Framer.frmReset_eq_initial (c : Config) (f : Framer) : f.frmReset c = Framer.initial c := rfl

/-- Shifting a bit into a byte with room for it doubles the byte and adds the bit (00_scope.md R18: no 1 is lost). -/
theorem shiftIn_toNat {x : Byte} (h : x.toNat < 128) (b : Bool) :
    (shiftIn b x).toNat = 2 * x.toNat + b.toNat := by
  have key : ∀ (b : Bool) (x : Byte), x.toNat < 128 → (shiftIn b x).toNat = 2 * x.toNat + b.toNat := by decide
  exact key b x h

/-- The bit count counts below 255. -/
theorem bitCount_succ {x : Byte} (h : x.toNat < 255) : (x + 1).toNat = x.toNat + 1 := by
  have h1 : (1 : Byte).toNat = 1 := rfl
  rw [BitVec.toNat_add, h1]
  omega

theorem satSucc_toNat {c : Config} (h : c.pcntMax ≤ 255) (p : Byte) :
    (satSucc c p).toNat = min (p.toNat + 1) c.pcntMax := by
  simp only [satSucc, BitVec.toNat_ofNat]
  exact Nat.mod_eq_of_lt (by omega)

/-- The data-bit case in one equation: the wait for the 9th bit begins after the 8th. -/
theorem Framer.dataBit_eq (b : Bool) (f : Framer) :
    f.dataBit b = { f.addBit b with awaitStop := f.awaitStop || decide ((f.bitCount + 1).toNat % 8 = 0) } := by
  unfold Framer.dataBit
  by_cases h : (f.addBit b).bitIndexInByte = 0
  · rw [if_pos h, decide_eq_true (show (f.bitCount + 1).toNat % 8 = 0 from h), Bool.or_true]
  · rw [if_neg h, decide_eq_false (show ¬ (f.bitCount + 1).toNat % 8 = 0 from h), Bool.or_false]
    rfl

/-- Everything `FrmBit` does when it answers (42_framer.md R143). -/
theorem Framer.frmBit_cases {c : Config} {b : Bool} {f f' : Framer} {p : Option Pkt}
    (h : f.frmBit c b = some (f', p)) :
    (f.frm = .preamble ∧ f' = f.preambleBit c b ∧ p = none) ∨
    (f.frm = .data ∧ f.awaitStop = false ∧ f.bitCount.toNat < 8 * c.pktBytes ∧ f' = f.dataBit b ∧ p = none) ∨
    (f.frm = .data ∧ f.awaitStop = true ∧ b = true ∧ f' = Framer.initial c ∧ p = some f.packet) ∨
    (f.frm = .data ∧ f.awaitStop = true ∧ b = false ∧ f.bitCount.toNat = 8 * c.pktBytes ∧
      f' = Framer.initial c ∧ p = none) ∨
    (f.frm = .data ∧ f.awaitStop = true ∧ b = false ∧ f.bitCount.toNat ≠ 8 * c.pktBytes ∧
      f' = { f with awaitStop := false } ∧ p = none) := by
  unfold Framer.frmBit at h
  cases hf : f.frm with
  | preamble =>
    simp only [hf, Option.some.injEq, Prod.mk.injEq] at h
    exact .inl ⟨rfl, h.1.symm, h.2.symm⟩
  | data =>
    simp only [hf] at h
    cases ha : f.awaitStop with
    | false =>
      simp only [ha, Bool.false_eq_true, if_false] at h
      split at h
      · next hlt =>
        simp only [Option.some.injEq, Prod.mk.injEq] at h
        exact .inr (.inl ⟨rfl, rfl, hlt, h.1.symm, h.2.symm⟩)
      · cases h
    | true =>
      simp only [ha, if_true, Option.some.injEq] at h
      unfold Framer.stopBit at h
      cases b with
      | true =>
        simp only [if_true, Prod.mk.injEq] at h
        exact .inr (.inr (.inl ⟨rfl, rfl, rfl, h.1.symm, h.2.symm⟩))
      | false =>
        simp only [Bool.false_eq_true, if_false] at h
        split at h
        · next hc =>
          simp only [Prod.mk.injEq] at h
          exact .inr (.inr (.inr (.inl ⟨rfl, rfl, rfl, hc, h.1.symm, h.2.symm⟩)))
        · next hc =>
          simp only [Prod.mk.injEq] at h
          exact .inr (.inr (.inr (.inr ⟨rfl, rfl, rfl, hc, by rw [← h.1, hf], h.2.symm⟩)))

/-- `FrmBit` answers whenever a data bit has room (10_state.md R41 INV6). -/
theorem Framer.frmBit_answers {c : Config} {f : Framer}
    (h : f.frm = .data → f.awaitStop = false → f.bitCount.toNat < 8 * c.pktBytes) (b : Bool) :
    ∃ f' p, f.frmBit c b = some (f', p) := by
  unfold Framer.frmBit
  cases hf : f.frm with
  | preamble => exact ⟨_, _, rfl⟩
  | data =>
    cases ha : f.awaitStop with
    | true => exact ⟨_, _, rfl⟩
    | false => exact ⟨f.dataBit b, none, by simp [h hf ha]⟩

end Sys2Proof.Machine
end

