-- ==== Sys2Proof/Laws/Exec.lean ====
section
/-! SUPPORT. Everything each shared operation and each meaning can do when it answers: the lemmas later proofs cite
instead of unfolding a meaning. -/

namespace Sys2Proof.Machine

theorem andThen_next {r : Result} {f : State → Result} {t : State} (h : andThen r f = .next t) :
    ∃ s, r = .next s ∧ f s = .next t := by
  cases r with
  | next s => exact ⟨s, rfl, h⟩
  | fault e => cases h
  | refused e => cases h

@[simp] theorem andThen_of_next (s : State) (f : State → Result) : andThen (.next s) f = f s := rfl

theorem withTime_next {v : Word} {s t : State} {k : Word → State → Result} (h : withTime v s k = .next t) :
    Fits s.cfg.wT v ∧ k v s = .next t := by
  unfold withTime at h
  split at h
  · next hv => exact ⟨hv, h⟩
  · cases h

theorem withTime_of_fits {v : Word} {s : State} (h : Fits s.cfg.wT v) (k : Word → State → Result) :
    withTime v s k = k v s := if_pos h

theorem fifoAdd_next {d : Word} {s t : State} (h : fifoAdd d s = .next t) :
    ∃ q, s.fifo.add s.cfg.rbSlots d = some q ∧ t = s.setFifo q := by
  unfold fifoAdd at h
  split at h
  · next q hq => exact ⟨q, hq, by cases h; rfl⟩
  · cases h

theorem frmBit_next {b : Bool} {s t : State} (h : frmBit b s = .next t) :
    ∃ f p, s.framer.frmBit s.cfg b = some (f, p) ∧ t = (s.setFramer f).emit p := by
  unfold frmBit at h
  split at h
  · next f p hf => exact ⟨f, p, hf, by cases h; rfl⟩
  · cases h

theorem execAdd_next {d : Word} {s t : State} (h : execAdd d s = .next t) :
    Fits s.cfg.wT d ∧ ∃ q, s.fifo.add s.cfg.rbSlots d = some q ∧ t = s.setFifo q :=
  (withTime_next h).imp id fifoAdd_next

theorem execGet_next {s t : State} (h : execGet s = .next t) :
    ∃ q v, s.fifo.get s.cfg.rbSlots = some (q, v) ∧ t = (s.setFifo q).respond (.get v) := by
  unfold execGet at h
  split at h
  · next q v hq => exact ⟨q, v, hq, by cases h; rfl⟩
  · cases h

theorem execTestclr_next {s t : State} (h : execTestclr s = .next t) :
    t = (s.setFifo s.fifo.clearFull).respond (.testclr s.fifo.full) := by
  cases h; rfl

/-- What a framer event does, by which event it is. -/
theorem frameEvent_next {e : BitEvent} {s t : State} (h : frameEvent e s = .next t) :
    (∃ b f p, e = (if b then .one else .zero) ∧ s.framer.frmBit s.cfg b = some (f, p) ∧ t = (s.setFramer f).emit p) ∨
    (e = .invalid ∧ t = s.frmReset) := by
  cases e with
  | one => obtain ⟨f, p, hf, ht⟩ := frmBit_next h; exact .inl ⟨true, f, p, rfl, hf, ht⟩
  | zero => obtain ⟨f, p, hf, ht⟩ := frmBit_next h; exact .inl ⟨false, f, p, rfl, hf, ht⟩
  | invalid => cases h; exact .inr ⟨rfl, rfl⟩

/-- A bit event performed inside STEP is the framer operation of that name. -/
theorem exec_bitEvent (e : BitEvent) (s : State) : exec e.instr s = frameEvent e s := by
  cases e <;> rfl

theorem execStep_next {d : Word} {s t : State} (h : execStep d s = .next t) :
    Fits s.cfg.wT d ∧ ∃ k e, pairHalf s.cls (classify s.cfg d) = some (k, e) ∧
      ((e = none ∧ t = s.countStep.setCls k) ∨
       ∃ ev, e = some ev ∧ frameEvent ev (s.countStep.setCls k) = .next t) := by
  refine (withTime_next h).imp id fun h => ?_
  unfold stepDelta at h
  split at h
  · cases h
  · next k hk => exact ⟨k, none, hk, .inl ⟨rfl, by cases h; rfl⟩⟩
  · next k ev hk => exact ⟨k, some ev, hk, .inr ⟨ev, rfl, h⟩⟩

theorem execEdge_next {u : Word} {s t : State} (h : execEdge u s = .next t) :
    Fits s.cfg.wT u ∧
    ((s.front.valid = false ∧ t = rememberEdge u s.countEdge) ∨
     (s.front.valid = true ∧ ∃ q, s.fifo.add s.cfg.rbSlots (timeDelta s.cfg u s.front.prev) = some q ∧
        t = rememberEdge u (s.countEdge.setFifo q))) := by
  refine (withTime_next h).imp id fun h => ?_
  unfold edgeAt at h
  simp only [State.countEdge_front, State.countEdge_cfg] at h
  cases hv : s.front.valid with
  | false =>
    simp only [hv, Bool.false_eq_true, if_false] at h
    exact .inl ⟨rfl, by cases h; rfl⟩
  | true =>
    simp only [hv, if_true] at h
    obtain ⟨s2, h2, h3⟩ := andThen_next h
    obtain ⟨q, hq, rfl⟩ := fifoAdd_next h2
    exact .inr ⟨rfl, q, hq, by cases h3; rfl⟩

theorem execDbg_next {idx : Word} {s t : State} (h : execDbg idx s = .next t) :
    ∃ v, s.dbg.read idx = some v ∧ t = s.respond (.dbg v) := by
  unfold execDbg at h
  split at h
  · next v hv => exact ⟨v, hv, by cases h; rfl⟩
  · cases h

theorem execReset_next {s t : State} (h : execReset s = .next t) : s.cfg.Legal ∧ t = resetBlock s := by
  unfold execReset at h
  split at h
  · next hc => exact ⟨hc, by cases h; rfl⟩
  · cases h

/-- A delta computed modulo 2^W_T is a value of W_T bits. -/
theorem timeDelta_fits {c : Config} (h : c.wT ≤ 32) (u p : Word) : Fits c.wT (timeDelta c u p) := by
  have h1 : (u - p).toNat % 2 ^ c.wT < 2 ^ c.wT := Nat.mod_lt _ (Nat.pos_of_ne_zero (by simp))
  have h2 : 2 ^ c.wT ≤ 2 ^ 32 := Nat.pow_le_pow_right (by omega) h
  simp only [Fits, timeDelta, BitVec.toNat_ofNat]
  rwa [Nat.mod_eq_of_lt (by omega)]

/-- The next event leaves everything but the events to come as it was. -/
theorem nextEvent_moves {s s' : State} {e : Event} (h : nextEvent s = some (e, s')) :
    ∃ es l, s' = (s.setSched es).setLater l := by
  have stay : ∀ es, s.setSched es = (s.setSched es).setLater s.later := fun _ => rfl
  have keep : ∀ l, s.setLater l = (s.setSched s.sched).setLater l := fun _ => rfl
  unfold nextEvent at h
  split at h
  · cases h; exact ⟨_, _, stay _⟩
  · split at h
    · cases h
    · cases h
    · cases h; exact ⟨_, _, stay _⟩
    · cases h; exact ⟨_, _, keep _⟩

/-- A listed event comes next. -/
theorem nextEvent_listed {s : State} {e : Event} {rest : List Event} (h : s.sched = e :: rest) :
    nextEvent s = some (e, s.setSched rest) := by
  simp [nextEvent, h]

/-- Nothing comes next exactly when no event is listed and none is to follow. -/
theorem nextEvent_none_iff (s : State) :
    nextEvent s = none ↔ s.sched = [] ∧ (s.later = .quiet ∨ s.later = .again []) := by
  unfold nextEvent
  split
  · next h => simp [h]
  · next h => split <;> simp_all

/-- Everything a step does when it answers: the state may be stepped from, and it held its state, performed a command,
or performed the consumer's next operation in SERVICE. -/
theorem step_next {s t : State} (h : step s = .next t) :
    s.cfg.Legal ∧ s.Valid ∧
    ((nextEvent s = none ∧ t = s) ∨
     (∃ a w s' i, nextEvent s = some (.command a w, s') ∧ acceptCommand s.cfg a w = .ok i ∧ exec i s' = .next t) ∨
     (∃ s' u, nextEvent s = some (.service, s') ∧ exec (serviceInstr s.svc) s' = .next u ∧
        t = u.setSvc (serviceNext s.svc u.resps))) := by
  unfold step State.rejection at h
  by_cases hc : s.cfg.Legal
  · by_cases hv : s.Valid
    · rw [if_pos hc, if_pos hv] at h
      refine ⟨hc, hv, ?_⟩
      simp only [fetch] at h
      rcases hn : nextEvent s with _ | ⟨e, s'⟩
      · simp only [hn] at h
        exact .inl ⟨rfl, by cases h; rfl⟩
      · simp only [hn] at h
        cases e with
        | command a w =>
          cases ha : acceptCommand s.cfg a w with
          | ok i =>
            simp only [ha] at h
            exact .inr (.inl ⟨a, w, s', i, rfl, ha, h⟩)
          | error r => simp only [ha] at h; cases h
        | service =>
          obtain ⟨u, hu, ht⟩ := andThen_next h
          exact .inr (.inr ⟨s', u, rfl, hu, by cases ht; rfl⟩)
    · rw [if_pos hc, if_neg hv] at h; cases h
  · rw [if_neg hc] at h; cases h

end Sys2Proof.Machine
end

