-- ==== Sys2Proof/Laws/PerInstr.lean ====
section
/-! SUPPORT. Family TableMatch: the word of every well-formed operation has the fixed bits that its row of
spec/opcode_table.json gives (30_encoding.md R73). -/

namespace Sys2Proof.Laws

/-- The mask column of spec/opcode_table.json. -/
def rowMask : Instr → CommandWord
  | .add _ => 0xFF00000000#40
  | .get => 0xFFFFFFFFFF#40
  | .testclr => 0xFFFFFFFFFF#40
  | .step _ => 0xFF00000000#40
  | .one => 0xFFFFFFFFFF#40
  | .zero => 0xFFFFFFFFFF#40
  | .invalid => 0xFFFFFFFFFF#40
  | .edge _ => 0xFF00000000#40
  | .ovfreset => 0xFFFFFFFFFF#40
  | .dbg _ => 0xFFFFFFFFFE#40
  | .reset => 0xFFFFFFFFFF#40

/-- The match column of spec/opcode_table.json. -/
def rowMatch : Instr → CommandWord
  | .add _ => 0x0100000000#40
  | .get => 0x0200000000#40
  | .testclr => 0x0300000000#40
  | .step _ => 0x0400000000#40
  | .one => 0x0500000000#40
  | .zero => 0x0600000000#40
  | .invalid => 0x0700000000#40
  | .edge _ => 0x0800000000#40
  | .ovfreset => 0x0900000000#40
  | .dbg _ => 0x0A00000000#40
  | .reset => 0x0B00000000#40

/-- Masking an opcode's word down to the opcode field drops the operand whole. -/
theorem append_and_opcodeMask (o : BitVec 8) (d : Word) :
    (o ++ d : BitVec (8 + 32)) &&& (0xFF#8 ++ 0#32) = o ++ 0#32 := by
  rw [BitVec.and_append, BitVec.and_zero]
  congr 1
  exact BitVec.and_allOnes

namespace TableMatch

/-- The operation's word, masked, is its row's match. -/
def Statement (i : Instr) : Prop := ∀ c : Config, i.wellFormed c = true → encode i &&& rowMask i = rowMatch i

theorem add (d : Word) : Statement (.add d) := fun _ _ => append_and_opcodeMask 0x01#8 d

theorem get : Statement .get := fun _ _ => by decide

theorem testclr : Statement .testclr := fun _ _ => by decide

theorem step (d : Word) : Statement (.step d) := fun _ _ => append_and_opcodeMask 0x04#8 d

theorem one : Statement .one := fun _ _ => by decide

theorem zero : Statement .zero := fun _ _ => by decide

theorem invalid : Statement .invalid := fun _ _ => by decide

theorem edge (t : Word) : Statement (.edge t) := fun _ _ => append_and_opcodeMask 0x08#8 t

theorem ovfreset : Statement .ovfreset := fun _ _ => by decide

theorem dbg (idx : Word) : Statement (.dbg idx) := fun _ h => by
  have hi : idx.toNat < 2 := of_decide_eq_true h
  have : idx = 0#32 ∨ idx = 1#32 := by bv_omega
  rcases this with rfl | rfl <;> decide

theorem reset : Statement .reset := fun _ _ => by decide

end TableMatch

end Sys2Proof.Laws
end

