-- ==== Sys2Proof/Laws/Valid.lean ====
section
/-! SUPPORT. The invariants of 10_state.md R41 cut along the parts of the state, and what the parts' operations do to
them. -/

namespace Sys2Proof.Machine

/-- The ring buffer's share of the invariants: the shape of its storage and of its history, and INV1. -/
structure Fifo.Ok (c : Config) (q : Fifo) : Prop where
  canonical : Memory.wf q.mem
  entries : ∀ p ∈ q.mem, p.1 < c.rbSlots ∧ Fits c.wT p.2
  history : q.written.Nodup ∧ ∀ i ∈ q.written, i < c.rbSlots
  wr_lt : q.wr < c.rbSlots
  rd_lt : q.rd < c.rbSlots
  written : ∀ k < q.count c.rbSlots, q.slotAt c.rbSlots k ∈ q.written

/-- The framer's share of the invariants: the shape of `pkt`, and INV2 to INV7 and INV9. -/
structure Framer.Ok (c : Config) (f : Framer) : Prop where
  bytes : f.pkt.length = c.pktBytes
  preamble_empty : f.frm = .preamble → f.bitCount = 0 ∧ f.awaitStop = false ∧ ∀ b ∈ f.pkt, b = 0
  data_pcnt : f.frm = .data → f.pcnt = 0
  bits_le : f.bitCount.toNat ≤ 8 * c.pktBytes
  await : f.awaitStop = true → f.frm = .data ∧ f.bitCount.toNat % 8 = 0 ∧ 8 ≤ f.bitCount.toNat
  room : f.frm = .data → f.awaitStop = false → f.bitCount.toNat < 8 * c.pktBytes
  pcnt_le : f.pcnt.toNat ≤ c.pcntMax
  later_zero : ∀ j < f.pkt.length, f.byteIndex < j → f.pkt[j]? = some 0
  current_lt : ∀ b ∈ f.pkt[f.byteIndex]?, b.toNat < 2 ^ f.bitIndexInByte

/-- A list of bytes holds only 0 exactly when each of its places does. -/
theorem all_zero_iff (l : List Byte) : (∀ j < l.length, l[j]? = some 0) ↔ ∀ b ∈ l, b = 0 := by
  constructor
  · intro h b hb
    obtain ⟨j, hj, rfl⟩ := List.getElem_of_mem hb
    have := h j hj
    rw [List.getElem?_eq_getElem hj] at this
    exact Option.some.inj this
  · intro h j hj
    rw [List.getElem?_eq_getElem hj, h _ (List.getElem_mem hj)]

/-- The current byte's bound, with and without a default for a place beyond the packet. -/
theorem current_lt_iff (l : List Byte) (i n : Nat) :
    (i < l.length → (l.getD i 0).toNat < n) ↔ ∀ b ∈ l[i]?, b.toNat < n := by
  rcases Nat.lt_or_ge i l.length with h | h
  · simp [List.getD_eq_getElem?_getD, h]
  · simp [Nat.not_lt.2 h]

/-- The invariants part by part. -/
theorem State.valid_iff (s : State) :
    s.Valid ↔ Fifo.Ok s.cfg s.fifo ∧ Framer.Ok s.cfg s.framer ∧ Fits s.cfg.wT s.front.prev ∧ s.cls ≠ .code3 := by
  constructor
  · rintro ⟨⟨h1, h2, hw, h3, h4⟩, ⟨h5, h6, h7⟩, i2, i3, i4, i5, i6, i7, i8, i9, i10⟩
    exact ⟨⟨h1, h2, hw, h5, h6, h7⟩, ⟨h3, fun h => (i2 h).imp id (And.imp id (all_zero_iff _).1), i3, i4, i5, i6, i7, i9,
      (current_lt_iff _ _ _).1 i10⟩, h4, i8⟩
  · rintro ⟨⟨h1, h2, hw, h5, h6, h7⟩, ⟨h3, i2, i3, i4, i5, i6, i7, i9, i10⟩, h4, i8⟩
    exact ⟨⟨h1, h2, hw, h3, h4⟩, ⟨h5, h6, h7⟩, fun h => (i2 h).imp id (And.imp id (all_zero_iff _).2), i3, i4, i5, i6, i7,
      i8, i9, (current_lt_iff _ _ _).2 i10⟩

/-! ### The ring buffer -/

/-- The values from the read cursor up to the write cursor, oldest first. -/
def Fifo.values (n : Nat) (q : Fifo) : List Word :=
  (List.range (q.count n)).map (fun k => Memory.read q.mem (q.slotAt n k))

theorem State.queue_eq (s : State) : s.queue = s.fifo.values s.cfg.rbSlots := rfl

theorem Fifo.values_length (n : Nat) (q : Fifo) : (q.values n).length = q.count n := by simp [Fifo.values]

/-- Every slot holds a value of W_T bits. -/
theorem Fifo.Ok.read_fits {c : Config} {q : Fifo} (h : Fifo.Ok c q) (i : Nat) : Fits c.wT (Memory.read q.mem i) :=
  Memory.read_fits (fun p hp => (h.entries p hp).2) i

/-- Storing a value of W_T bits at the write cursor keeps the storage's shape. -/
theorem Fifo.Ok.entries_write {c : Config} {q : Fifo} (h : Fifo.Ok c q) {d : Word} (hd : Fits c.wT d) :
    ∀ p ∈ Memory.write q.mem q.wr d, p.1 < c.rbSlots ∧ Fits c.wT p.2 := by
  intro p hp
  rcases Memory.mem_write hp with rfl | hp
  · exact ⟨h.wr_lt, hd⟩
  · exact h.entries p hp

theorem Fifo.Ok.count_lt {c : Config} {q : Fifo} (h : Fifo.Ok c q) : q.count c.rbSlots < c.rbSlots :=
  Nat.mod_lt _ (Nat.lt_of_le_of_lt (Nat.zero_le _) h.wr_lt)

/-- Storing one more value without a collision appends it, and keeps the invariants. -/
theorem Fifo.Ok.push {c : Config} {q q' : Fifo} (h : Fifo.Ok c q) {d : Word} (hd : Fits c.wT d)
    (hc : nextSlot c.rbSlots q.wr ≠ q.rd)
    (hq : q' = { mem := Memory.write q.mem q.wr d, wr := nextSlot c.rbSlots q.wr, rd := q.rd, full := q.full,
                 written := q.written.insert q.wr }) :
    Fifo.Ok c q' ∧ q'.values c.rbSlots = q.values c.rbSlots ++ [d] := by
  subst hq
  have hent := h.entries_write hd
  obtain ⟨h1, -, ⟨hn, hlt⟩, h3, h4, h5⟩ := h
  set n := c.rbSlots
  set q' : Fifo := { mem := Memory.write q.mem q.wr d, wr := nextSlot n q.wr, rd := q.rd, full := q.full,
                     written := q.written.insert q.wr } with hq'
  have hw' : q'.wr < n := nextSlot_lt h3
  have hcount : q'.count n = q.count n + 1 := by
    rw [Fifo.count_eq hw' (q := q') h4, Fifo.count_eq h3 h4]
    simp only [hq'] at *
    rw [nextSlot_eq h3] at hc ⊢
    split_ifs at hc ⊢ <;> omega
  have hcn : q.count n + 1 < n := by
    rw [← hcount]; exact Nat.mod_lt _ (by omega)
  have hslot : ∀ k, q'.slotAt n k = q.slotAt n k := fun k => rfl
  have hlast : q.slotAt n (q.count n) = q.wr := by
    rw [Fifo.slotAt_eq h4 (by omega), Fifo.count_eq h3 h4]
    split_ifs <;> omega
  have hother : ∀ k < q.count n, q.slotAt n k ≠ q.wr := by
    intro k hk
    rw [Fifo.slotAt_eq h4 (by omega)]
    rw [Fifo.count_eq h3 h4] at hk
    split_ifs at hk ⊢ <;> omega
  refine ⟨⟨Memory.write_wf h1 _ _, hent, ⟨hn.insert, fun i hi => ?_⟩, hw', h4, fun k hk => ?_⟩, ?_⟩
  · rcases List.mem_insert_iff.1 hi with rfl | hi
    · exact h3
    · exact hlt i hi
  · rw [hcount] at hk
    rw [hslot]
    rcases Nat.lt_succ_iff_lt_or_eq.1 hk with hk | rfl
    · exact List.mem_insert_iff.2 (.inr (h5 k hk))
    · exact List.mem_insert_iff.2 (.inl hlast)
  · unfold Fifo.values
    rw [hcount, List.range_succ, List.map_append]
    congr 1
    · exact List.map_congr_left fun k hk => Memory.read_write_other q.mem d (hother k (List.mem_range.1 hk))
    · rw [List.map_singleton, hslot, hlast, Memory.read_write_same h1]

/-- An overflow keeps the invariants and leaves nothing buffered. -/
theorem Fifo.Ok.overflowed {c : Config} {q q' : Fifo} (h : Fifo.Ok c q) {d : Word} (hd : Fits c.wT d)
    (hq : q' = { mem := Memory.write q.mem q.wr d, wr := 0, rd := 0, full := true, written := [] }) :
    Fifo.Ok c q' ∧ q'.values c.rbSlots = [] := by
  subst hq
  have hent := h.entries_write hd
  have hpos : 0 < c.rbSlots := Nat.lt_of_le_of_lt (Nat.zero_le _) h.wr_lt
  have hcount : Fifo.count c.rbSlots
      { mem := Memory.write q.mem q.wr d, wr := 0, rd := 0, full := true, written := [] } = 0 := by
    simp [Fifo.count]
  refine ⟨⟨Memory.write_wf h.canonical _ _, hent, ⟨List.nodup_nil, by simp⟩, hpos, hpos, fun k hk => ?_⟩, ?_⟩
  · rw [hcount] at hk; omega
  · rw [Fifo.values, hcount]; rfl

/-- ADD's operation keeps the invariants; it appends, or overflows and empties. -/
theorem Fifo.Ok.add {c : Config} {q q' : Fifo} (h : Fifo.Ok c q) {d : Word} (hd : Fits c.wT d)
    (ha : q.add c.rbSlots d = some q') :
    Fifo.Ok c q' ∧
    ((nextSlot c.rbSlots q.wr ≠ q.rd ∧ q'.values c.rbSlots = q.values c.rbSlots ++ [d] ∧ q'.full = q.full) ∨
     (nextSlot c.rbSlots q.wr = q.rd ∧ q'.values c.rbSlots = [] ∧ q'.full = true ∧ q'.wr = 0 ∧ q'.rd = 0)) := by
  obtain ⟨-, ⟨hc, hq⟩ | ⟨hc, hq⟩⟩ := Fifo.add_cases ha
  · obtain ⟨hok, hv⟩ := h.overflowed hd hq
    exact ⟨hok, .inr ⟨hc, hv, by subst hq; exact ⟨rfl, rfl, rfl⟩⟩⟩
  · obtain ⟨hok, hv⟩ := h.push hd hc hq
    exact ⟨hok, .inl ⟨hc, hv, by subst hq; rfl⟩⟩

/-- GET's operation when there is a value to read: the oldest value leaves. -/
theorem Fifo.Ok.pop {c : Config} {q : Fifo} (h : Fifo.Ok c q) (hne : q.rd ≠ q.wr) :
    Fifo.Ok c { q with rd := nextSlot c.rbSlots q.rd } ∧
    q.values c.rbSlots =
      Memory.read q.mem q.rd :: Fifo.values c.rbSlots { q with rd := nextSlot c.rbSlots q.rd } := by
  obtain ⟨h1, h2, hh, h3, h4, h5⟩ := h
  set n := c.rbSlots
  set q' : Fifo := { q with rd := nextSlot n q.rd } with hq'
  have hr' : q'.rd < n := nextSlot_lt h4
  have hcount : q.count n = q'.count n + 1 := by
    rw [Fifo.count_eq (q := q') h3 hr', Fifo.count_eq h3 h4]
    simp only [hq']
    rw [nextSlot_eq h4]
    split_ifs <;> omega
  have hcn : q.count n < n := Nat.mod_lt _ (by omega)
  have hfirst : q.slotAt n 0 = q.rd := by
    rw [Fifo.slotAt_eq h4 (by omega)]
    split_ifs <;> omega
  have hslot : ∀ k < q'.count n, q'.slotAt n k = q.slotAt n (k + 1) := by
    intro k hk
    rw [Fifo.slotAt_eq (q := q') hr' (by omega), Fifo.slotAt_eq h4 (by omega)]
    simp only [hq']
    rw [nextSlot_eq h4]
    split_ifs <;> omega
  refine ⟨⟨h1, h2, hh, h3, hr', fun k hk => ?_⟩, ?_⟩
  · have hk' : k < q'.count n := hk
    have := h5 (k + 1) (by omega)
    rw [← hslot k hk'] at this
    exact this
  · unfold Fifo.values
    rw [hcount, List.range_succ_eq_map, List.map_cons, List.map_map, hfirst]
    congr 1
    exact List.map_congr_left fun k hk => by
      show Memory.read q.mem (q.slotAt n (k + 1)) = Memory.read q'.mem (q'.slotAt n k)
      rw [hslot k (List.mem_range.1 hk)]

/-- Nothing is buffered exactly when the cursors meet. -/
theorem Fifo.Ok.values_nil_iff {c : Config} {q : Fifo} (h : Fifo.Ok c q) :
    q.values c.rbSlots = [] ↔ q.rd = q.wr := by
  rw [← List.length_eq_zero_iff, Fifo.values_length, Fifo.count_eq h.wr_lt h.rd_lt]
  have := h.wr_lt
  have := h.rd_lt
  split_ifs <;> omega

/-- GET's operation keeps the invariants; it takes the oldest value, or answers empty and changes nothing. -/
theorem Fifo.Ok.get {c : Config} {q : Fifo} (h : Fifo.Ok c q) :
    ∃ q' v, q.get c.rbSlots = some (q', v) ∧ Fifo.Ok c q' ∧
      ((∃ d, v = some d ∧ Fits c.wT d ∧ q.full = false ∧ q.values c.rbSlots = d :: q'.values c.rbSlots ∧
          q'.full = false) ∨
       (v = none ∧ q' = q ∧ (q.values c.rbSlots = [] ∨ q.full = true))) := by
  by_cases hr : q.rd ≠ q.wr ∧ q.full = false
  · obtain ⟨hok, hvs⟩ := h.pop hr.1
    refine ⟨_, some (Memory.read q.mem q.rd), ?_, hok, .inl ⟨_, rfl, h.read_fits _, hr.2, hvs, hr.2⟩⟩
    simp only [Fifo.get, (Fifo.readable_iff q).2 hr, if_true, if_pos h.rd_lt]
  · refine ⟨q, none, ?_, h, .inr ⟨rfl, rfl, ?_⟩⟩
    · have : q.readable = false := by
        cases hb : q.readable with
        | false => rfl
        | true => exact absurd ((Fifo.readable_iff q).1 hb) hr
      simp [Fifo.get, this]
    · rw [h.values_nil_iff]
      by_cases he : q.rd = q.wr
      · exact .inl he
      · right
        cases hf : q.full with
        | true => rfl
        | false => exact absurd ⟨he, hf⟩ hr

theorem Fifo.Ok.clearFull {c : Config} {q : Fifo} (h : Fifo.Ok c q) : Fifo.Ok c q.clearFull :=
  ⟨h.canonical, h.entries, h.history, h.wr_lt, h.rd_lt, h.written⟩

theorem Fifo.Ok.restart {c : Config} {q : Fifo} (h : Fifo.Ok c q) : Fifo.Ok c q.restart := by
  have hpos : 0 < c.rbSlots := Nat.lt_of_le_of_lt (Nat.zero_le _) h.wr_lt
  refine ⟨h.canonical, h.entries, ⟨List.nodup_nil, by simp⟩, hpos, hpos, fun k hk => ?_⟩
  have : q.restart.count c.rbSlots = 0 := by simp [Fifo.count]
  omega

/-! ### The framer -/

theorem Framer.initial_ok {c : Config} (h : c.Legal) : Framer.Ok c (Framer.initial c) where
  bytes := by simp [Framer.initial]
  preamble_empty := fun _ => ⟨rfl, rfl, fun b hb => List.eq_of_mem_replicate hb⟩
  data_pcnt := fun h => by simp [Framer.initial] at h
  bits_le := by simp [Framer.initial]
  await := fun h => by simp [Framer.initial] at h
  room := fun h => by simp [Framer.initial] at h
  pcnt_le := by simp [Framer.initial]
  later_zero := fun j hj _ => by
    simp only [Framer.initial, List.length_replicate] at hj
    simp [Framer.initial, hj]
  current_lt := fun b hb => by
    have hp := h.2.2.2.2.1
    simp only [Framer.initial, Framer.byteIndex, Framer.bitIndexInByte, List.getElem?_replicate] at hb ⊢
    split at hb
    · cases hb; simp
    · cases hb

/-- A bit in PREAMBLE keeps the invariants. -/
theorem Framer.Ok.preambleBit {c : Config} {f : Framer} (hc : c.Legal) (h : Framer.Ok c f)
    (hp : f.frm = .preamble) (b : Bool) : Framer.Ok c (f.preambleBit c b) := by
  obtain ⟨h1, h2, h3, h4, h5, h6, h7, h8, h9⟩ := h
  obtain ⟨hb, ha, hz⟩ := h2 hp
  have hpos := hc.2.2.2.2.1
  have hmax := hc.2.2.2.1.2.2
  unfold Framer.preambleBit
  split
  · refine ⟨h1, h2, fun hd => ?_, h4, h5, h6, ?_, h8, h9⟩
    · simp [hp] at hd
    · show (satSucc c f.pcnt).toNat ≤ c.pcntMax
      rw [satSucc_toNat hmax]; exact Nat.min_le_right _ _
  · split
    · refine ⟨h1, fun hd => ?_, fun _ => rfl, h4, fun hs => ?_, fun _ _ => ?_, Nat.zero_le _, h8, h9⟩
      · simp at hd
      · simp [ha] at hs
      · show f.bitCount.toNat < _
        rw [hb]; show 0 < _; omega
    · exact ⟨h1, h2, fun _ => rfl, h4, h5, h6, Nat.zero_le _, h8, h9⟩

/-- A data bit with room for it keeps the invariants. -/
theorem Framer.Ok.dataBit {c : Config} {f : Framer} (hc : c.Legal) (h : Framer.Ok c f)
    (hd : f.frm = .data) (ha : f.awaitStop = false) (b : Bool) : Framer.Ok c (f.dataBit b) := by
  obtain ⟨h1, h2, h3, h4, h5, h6, h7, h8, h9⟩ := h
  have hroom := h6 hd ha
  have hpk := hc.2.2.2.2.2
  have hcnt : (f.bitCount + 1).toNat = f.bitCount.toNat + 1 := bitCount_succ (by omega)
  rw [Framer.dataBit_eq, ha, Bool.false_or]
  have hidx : f.byteIndex < f.pkt.length := by
    rw [h1]; exact Nat.div_lt_of_lt_mul hroom
  have hcur : f.pkt[f.byteIndex].toNat < 2 ^ f.bitIndexInByte :=
    h9 _ (by rw [List.getElem?_eq_getElem hidx]; exact rfl)
  have hk8 : f.bitIndexInByte < 8 := Nat.mod_lt _ (by omega)
  have hpow : 2 ^ f.bitIndexInByte ≤ 2 ^ 7 := Nat.pow_le_pow_right (by omega) (by omega)
  have hshift : (shiftIn b f.pkt[f.byteIndex]).toNat < 2 ^ (f.bitIndexInByte + 1) := by
    rw [shiftIn_toNat (by omega)]
    have : b.toNat ≤ 1 := Bool.toNat_le b
    rw [Nat.pow_succ]; omega
  refine ⟨by simpa using h1, ?_, ?_, ?_, ?_, ?_, h7, ?_, ?_⟩
  · intro hp; simp [hd] at hp
  · intro _; exact h3 hd
  · show (f.bitCount + 1).toNat ≤ _
    omega
  · intro hs
    have hs' : (f.bitCount + 1).toNat % 8 = 0 := of_decide_eq_true hs
    refine ⟨hd, hs', ?_⟩
    show 8 ≤ (f.bitCount + 1).toNat
    omega
  · intro _ hs
    have hs' : ¬ (f.bitCount + 1).toNat % 8 = 0 := of_decide_eq_false hs
    show (f.bitCount + 1).toNat < _
    omega
  · intro j hj hlt
    simp only [Framer.byteIndex, Framer.addBit_bitCount, Framer.addBit_pkt, List.length_modify] at hj hlt ⊢
    have hne : f.bitCount.toNat / 8 ≠ j := by omega
    rw [List.getElem?_modify_ne _ _ hne]
    exact h8 j hj (by simp only [Framer.byteIndex]; omega)
  · intro x hx
    simp only [Framer.byteIndex, Framer.bitIndexInByte, Framer.addBit_bitCount, Framer.addBit_pkt, hcnt] at hx ⊢
    simp only [Framer.byteIndex] at hidx hshift
    simp only [Framer.bitIndexInByte] at hshift hk8
    by_cases h7' : f.bitCount.toNat % 8 = 7
    · have hne : f.bitCount.toNat / 8 ≠ (f.bitCount.toNat + 1) / 8 := by omega
      rw [List.getElem?_modify_ne _ _ hne] at hx
      have hlt : (f.bitCount.toNat + 1) / 8 < f.pkt.length := by
        have := (List.getElem?_eq_some_iff.1 hx).1
        exact this
      have h0 := h8 _ hlt (by simp only [Framer.byteIndex]; omega)
      have hx' : f.pkt[(f.bitCount.toNat + 1) / 8]? = some x := hx
      rw [hx'] at h0
      cases h0
      exact Nat.pos_of_ne_zero (by simp)
    · have heq : (f.bitCount.toNat + 1) / 8 = f.bitCount.toNat / 8 := by omega
      rw [heq, List.getElem?_modify_eq, List.getElem?_eq_getElem hidx] at hx
      have hx' : shiftIn b f.pkt[f.bitCount.toNat / 8] = x := Option.some.inj hx
      rw [show (f.bitCount.toNat + 1) % 8 = f.bitCount.toNat % 8 + 1 by omega, ← hx']
      exact hshift

/-- A continuation 0 with room for another byte keeps the invariants. -/
theorem Framer.Ok.continued {c : Config} {f : Framer} (h : Framer.Ok c f) (hd : f.frm = .data)
    (hn : f.bitCount.toNat ≠ 8 * c.pktBytes) : Framer.Ok c { f with awaitStop := false } := by
  obtain ⟨h1, h2, h3, h4, h5, h6, h7, h8, h9⟩ := h
  refine ⟨h1, fun hp => ?_, h3, h4, fun hs => ?_, fun _ _ => ?_, h7, h8, h9⟩
  · simp [hd] at hp
  · simp at hs
  · show f.bitCount.toNat < _
    omega

/-- `FrmBit` answers and keeps the invariants; an event it emits carries 1 to PKT_BYTES bytes. -/
theorem Framer.Ok.frmBit {c : Config} {f : Framer} (hc : c.Legal) (h : Framer.Ok c f) (b : Bool) :
    ∃ f' p, f.frmBit c b = some (f', p) ∧ Framer.Ok c f' ∧
      ∀ k ∈ p, 1 ≤ k.nbytes ∧ k.nbytes ≤ c.pktBytes ∧ k.bytes.length = k.nbytes := by
  obtain ⟨f', p, hb⟩ := Framer.frmBit_answers h.room b
  refine ⟨f', p, hb, ?_⟩
  rcases Framer.frmBit_cases hb with ⟨hf, rfl, rfl⟩ | ⟨hf, ha, -, rfl, rfl⟩ | ⟨hf, ha, -, rfl, rfl⟩ |
    ⟨-, -, -, -, rfl, rfl⟩ | ⟨hf, -, -, hn, rfl, rfl⟩
  · exact ⟨h.preambleBit hc hf b, by simp⟩
  · exact ⟨h.dataBit hc hf ha b, by simp⟩
  · refine ⟨Framer.initial_ok hc, fun k hk => ?_⟩
    obtain ⟨-, h8, hge⟩ := h.await ha
    have hle := h.bits_le
    cases hk
    have hi : f.byteIndex ≤ c.pktBytes := Nat.div_le_of_le_mul hle
    refine ⟨?_, hi, ?_⟩
    · show 1 ≤ f.bitCount.toNat / 8; omega
    · simp [Framer.packet, h.bytes, hi]
  · exact ⟨Framer.initial_ok hc, by simp⟩
  · exact ⟨h.continued hf hn, by simp⟩

end Sys2Proof.Machine
end

