-- ==== Sys2Proof/Laws/Run.lean ====
section
/-! SUPPORT. Runs of the machine, one step at a time. -/

namespace Sys2Proof.Machine

/-- A state of a legal configuration that meets the invariants is stepped from. -/
theorem State.rejection_none {s : State} (hc : s.cfg.Legal) (hv : s.Valid) : s.rejection = none := by
  unfold State.rejection
  rw [if_pos hc, if_pos hv]

/-- A run takes its first step, and goes on from there. -/
theorem run_succ (M : Host.Core) {k : Nat} {s s' : M.State} (h : M.step s = .next s') :
    Host.Core.run M (k + 1) s = Host.Core.run M k s' := by
  rw [Host.Core.run, h]

end Sys2Proof.Machine
end

