-- ==== Sys2Proof/Tests/Slice0.lean ====
section
/-! SUPPORT. The model's own tests, with expected results from 95_test_vectors.md and the worked examples of the rules,
and a witness for the hypotheses of every statement that has some. -/

namespace Sys2Proof.Tests

open Sys2Proof Sys2Proof.Machine

/-! ### Small states -/

/-- Four slots and two packet bytes, the other parameters at their defaults (95_test_vectors.md sections 1.1, 3.5). -/
def small : Config := { Config.default with rbSlots := 4, pktBytes := 2 }

/-- Time values of 16 bits (95_test_vectors.md E6). -/
def narrow : Config := { Config.default with wT := 16 }

/-- One preamble bit is enough, so that a framed packet is short. -/
def quick : Config := { Config.default with rbSlots := 4, minPreamble := 1, pktBytes := 1 }

/-- Overlapping windows (95_test_vectors.md section 2.3). -/
def overlapping : Config := { Config.default with shortMax := 95 }

/-- The reset state with a ring buffer put into it. -/
def withFifo (mem : Memory) (wr rd : Nat) (full : Bool) (written : List Nat) : State :=
  { State.resetWith small with fifo := { mem := mem, wr := wr, rd := rd, full := full, written := written } }

/-- 95_test_vectors.md F1: three values, RB_CAP of them. -/
def threeHeld : State := withFifo [(0, 5), (1, 6), (2, 7)] 3 0 false [2, 1, 0]

/-- 95_test_vectors.md F3: nothing held, both cursors at the last slot. -/
def atLastSlot : State := withFifo [(0, 5), (1, 6), (2, 7)] 3 3 false [2, 1, 0]

/-- 95_test_vectors.md F2: right after an overflow. -/
def overflowed : State := withFifo [(0, 5), (1, 6), (2, 7), (3, 8)] 0 0 true []

/-- 95_test_vectors.md F7: an overflow latched, and one value added since. -/
def heldBack : State := withFifo [(0, 11), (1, 6), (2, 3), (3, 4)] 1 0 true [0]

/-- The reset state with a framer put into it. -/
def withFramer (frm : Machine.Frm) (await : Bool) (pcnt : Byte) (pkt : List Byte) (bits : Byte) : State :=
  { State.resetWith small with
    framer := { frm := frm, awaitStop := await, pcnt := pcnt, pkt := pkt, bitCount := bits } }

/-- PREAMBLE with `n` ones counted. -/
def counted (n : Byte) : State := withFramer .preamble false n [0, 0] 0

/-- DATA right after the start bit. -/
def dataStart : State := withFramer .data false 0 [0, 0] 0

/-- 95_test_vectors.md B7: seven bits in. -/
def sevenBits : State := withFramer .data false 0 [0x2A, 0] 7

/-- One byte in, its 9th bit awaited. -/
def oneByte : State := withFramer .data true 0 [0xAA, 0] 8

/-- Two bytes in, PKT_BYTES of them, the 9th bit awaited. -/
def twoBytes : State := withFramer .data true 0 [0xAA, 0xEA] 16

/-- The reset state with a classifier state put into it. -/
def withCls (k : Cls) : State := { State.resetWith small with cls := k }

/-- The front-end has seen an edge at `t`. -/
def edgeSeen (c : Config) (t : Word) : State := { State.resetWith c with front := { prev := t, valid := true } }

/-- An edge was seen, and the ring buffer is at capacity. -/
def edgeAtCapacity : State := { threeHeld with front := { prev := 174, valid := true } }

/-- The state after, or the reset state where there is none. -/
def after (r : Result) : State :=
  match r with
  | .next s => s
  | .fault _ => State.reset
  | .refused _ => State.reset

/-- Why a result is refused. -/
def whyRefused (r : Result) : Option Refusal :=
  match r with
  | .next _ => none
  | .fault _ => none
  | .refused e => some e

/-! ### Decoding: words written out from 30_encoding.md R70 and R73, opcode and operand bit by bit -/

theorem test_decode_add :
    decode Config.default 0b00000001_00000000_00000000_00000000_00111010#40 = .ok (.add 58) := by decide

theorem test_decode_get :
    decode Config.default 0b00000010_00000000_00000000_00000000_00000000#40 = .ok .get := by decide

theorem test_decode_testclr :
    decode Config.default 0b00000011_00000000_00000000_00000000_00000000#40 = .ok .testclr := by decide

theorem test_decode_step :
    decode Config.default 0b00000100_11111111_11111111_11111111_11111111#40 = .ok (.step 4294967295) := by decide

theorem test_decode_one :
    decode Config.default 0b00000101_00000000_00000000_00000000_00000000#40 = .ok .one := by decide

theorem test_decode_zero :
    decode Config.default 0b00000110_00000000_00000000_00000000_00000000#40 = .ok .zero := by decide

theorem test_decode_invalid :
    decode Config.default 0b00000111_00000000_00000000_00000000_00000000#40 = .ok .invalid := by decide

theorem test_decode_edge :
    decode Config.default 0b00001000_00000000_00000000_00000011_11101000#40 = .ok (.edge 1000) := by decide

theorem test_decode_ovfreset :
    decode Config.default 0b00001001_00000000_00000000_00000000_00000000#40 = .ok .ovfreset := by decide

theorem test_decode_dbg :
    decode Config.default 0b00001010_00000000_00000000_00000000_00000001#40 = .ok (.dbg 1) := by decide

theorem test_decode_reset :
    decode Config.default 0b00001011_00000000_00000000_00000000_00000000#40 = .ok .reset := by decide

/-- 95_test_vectors.md section 2.1: the ends of the reserved opcodes. -/
theorem test_decode_reserved_opcodes :
    decode Config.default 0x0000000000#40 = .error .reservedOpcode ∧
    decode Config.default 0x0C00000000#40 = .error .reservedOpcode ∧
    decode Config.default 0xFF00000000#40 = .error .reservedOpcode := by decide

/-- 95_test_vectors.md section 2.1: operands that must be zero, or must fit W_T bits. -/
theorem test_decode_reserved_operands :
    decode Config.default 0x0200000001#40 = .error .reservedOperand ∧
    decode Config.default 0x0B80000000#40 = .error .reservedOperand ∧
    decode narrow 0x0800010000#40 = .error .reservedOperand ∧
    decode narrow 0x080000FFFF#40 = .ok (.edge 65535) := by decide

/-- 95_test_vectors.md section 2.1: the debug index. -/
theorem test_decode_debug_index :
    decode Config.default 0x0A00000002#40 = .error .debugIndex ∧
    decode Config.default 0x0AFFFFFFFF#40 = .error .debugIndex := by decide

/-- The host's entry to the decoder, on rows of spec/opcode_table.json. -/
theorem test_decode_table_words :
    decodeTableWord 40 0x0100000000 = some (.add 0) ∧ decodeTableWord 40 0x0B00000000 = some .reset ∧
    decodeTableWord 40 0x0C00000000 = none := by decide

/-! ### WellFormed refuses -/

theorem test_ill_formed_add : (Instr.add 0x10000).wellFormed narrow = false := by decide

theorem test_ill_formed_step : (Instr.step 0x10000).wellFormed narrow = false := by decide

theorem test_ill_formed_edge : (Instr.edge 0x10000).wellFormed narrow = false := by decide

theorem test_ill_formed_dbg : (Instr.dbg 2).wellFormed Config.default = false := by decide

/-! ### The operations -/

/-- 95_test_vectors.md F4: the write cursor wraps. -/
theorem test_add_wraps : (after (exec (.add 9) atLastSlot)).fifo =
    { mem := [(0, 5), (1, 6), (2, 7), (3, 9)], wr := 0, rd := 3, full := false, written := [3, 2, 1, 0] } := by decide

/-- 95_test_vectors.md F2: the 8 is discarded with the rest. -/
theorem test_add_overflows : (after (exec (.add 8) threeHeld)).fifo = overflowed.fifo := by decide

/-- 20_memory.md R51: a slot set to the value an unwritten slot holds reads as that value, and the list says no more of
it. -/
theorem test_add_zero : (after (exec (.add 0) atLastSlot)).fifo.mem = [(0, 5), (1, 6), (2, 7)] ∧
    Memory.read (Memory.write [(0, 5), (3, 9)] 3 0) 3 = 0 ∧
    Memory.write [(0, 5), (3, 9)] 3 0 = [(0, 5)] := by decide

/-- 95_test_vectors.md F3. -/
theorem test_get_oldest : (after (exec .get threeHeld)).resps = [.get (some 5)] ∧
    (after (exec .get threeHeld)).fifo.rd = 1 := by decide

/-- 95_test_vectors.md F7: held back while `full` is 1. -/
theorem test_get_held_back : (after (exec .get heldBack)).resps = [.get none] ∧
    (after (exec .get heldBack)).fifo = heldBack.fifo := by decide

/-- 95_test_vectors.md section 1.2. -/
theorem test_testclr : (after (exec .testclr overflowed)).resps = [.testclr true] ∧
    (after (exec .testclr overflowed)).fifo.full = false := by decide

/-- 95_test_vectors.md section 2.4, row 4: a short pair is a 1. -/
theorem test_step_short_pair : (after (exec (.step 58) (withCls .shortHalfSeen))).framer.pcnt = 1 ∧
    (after (exec (.step 58) (withCls .shortHalfSeen))).cls = .awaitFirstHalf := by decide

/-- 95_test_vectors.md section 2.4, row 8: long then short drops a packet in assembly, and counts. -/
theorem test_step_mismatch :
    (after (exec (.step 58) { sevenBits with cls := .longHalfSeen })).framer = Framer.initial small ∧
    (after (exec (.step 58) { sevenBits with cls := .longHalfSeen })).dbg.dbg1 = 1 := by decide

/-- 95_test_vectors.md section 2.3, the window ends. -/
theorem test_classify_ends :
    [51, 52, 64, 65, 89, 90, 119, 120].map (classify Config.default) =
      [.bad, .short, .short, .bad, .bad, .long, .long, .bad] := by decide

/-- 95_test_vectors.md B8: the 8th bit. -/
theorem test_one_eighth_bit : (after (exec .one sevenBits)).framer =
    { frm := .data, awaitStop := true, pcnt := 0, pkt := [0x55, 0], bitCount := 8 } := by decide

/-- 95_test_vectors.md section 1.5: the stop bit. -/
theorem test_one_ends_packet : (after (exec .one twoBytes)).out = [{ bytes := [0xAA, 0xEA], nbytes := 2 }] ∧
    (after (exec .one twoBytes)).framer = Framer.initial small := by decide

/-- 95_test_vectors.md section 1.4: nine ones are too few, ten are enough. -/
theorem test_zero_after_preamble : (after (exec .zero (counted 9))).framer.frm = .preamble ∧
    (after (exec .zero (counted 10))).framer.frm = .data := by decide

/-- 95_test_vectors.md section 3.5: no room for a third byte. -/
theorem test_zero_beyond_capacity : (after (exec .zero twoBytes)).framer = Framer.initial small ∧
    (after (exec .zero twoBytes)).out = [] := by decide

/-- 95_test_vectors.md section 1.7, last row: `cls` stays. -/
theorem test_invalid : (after (exec .invalid { twoBytes with cls := .shortHalfSeen })).framer =
    Framer.initial small ∧
    (after (exec .invalid { twoBytes with cls := .shortHalfSeen })).cls = .shortHalfSeen := by decide

/-- 95_test_vectors.md E3: the time source wrapped. -/
theorem test_edge_wraps : (after (exec (.edge 0x2A) (edgeSeen small 0xFFFFFFF0))).fifo.mem = [(0, 58)] := by decide

/-- 95_test_vectors.md E6: the same in 16 bits. -/
theorem test_edge_wraps_narrow : (after (exec (.edge 0x2A) (edgeSeen narrow 0xFFF0))).fifo.mem = [(0, 58)] := by
  decide

/-- 95_test_vectors.md O1. -/
theorem test_ovfreset : (after (exec .ovfreset { sevenBits with cls := .longHalfSeen })).cls = .awaitFirstHalf ∧
    (after (exec .ovfreset { sevenBits with cls := .longHalfSeen })).framer = Framer.initial small := by decide

/-- 43_control.md R172: three EDGEs and two STEPs counted. -/
theorem test_dbg : (after (exec (.dbg 0) { State.reset with dbg := { dbg0 := 3, dbg1 := 2 } })).resps = [.dbg 3] ∧
    (after (exec (.dbg 1) { State.reset with dbg := { dbg0 := 3, dbg1 := 2 } })).resps = [.dbg 2] := by decide

/-- 95_test_vectors.md G4. -/
theorem test_dbg_refused : whyRefused (exec (.dbg 2) State.reset) = some .debugIndex := by decide

/-- 95_test_vectors.md X1. -/
theorem test_reset : after (exec .reset
      { twoBytes with
        fifo := { mem := [(3, 7)], wr := 1, rd := 3, full := true, written := [0, 3] }
        cls := .longHalfSeen
        front := { prev := 9999, valid := true }
        dbg := { dbg0 := 40, dbg1 := 39 }
        out := [{ bytes := [0x01], nbytes := 1 }] }) =
    { State.resetWith small with fifo := { mem := [(3, 7)], wr := 0, rd := 0, full := false, written := [] } } := by decide

/-- 95_test_vectors.md section 2.3: overlapping windows are refused. -/
theorem test_reset_refused : whyRefused (exec .reset (State.resetWith overlapping)) = some .badConfig := by decide

/-- 95_test_vectors.md F10: a value of 0 differs from empty. -/
theorem test_get_words : getWord (some 0) = 0x100000000#33 ∧ getWord none = 0x000000000#33 := by decide

/-! ### Steps -/

theorem test_reset_runs_a_word :
    (after (step (State.reset.withFetchWord 40 0x010000003A))).fifo =
      { mem := [(0, 58)], wr := 1, rd := 0, full := false, written := [0] } ∧
    (after (step (State.reset.withFetchWord 40 0x010000003A))).sched = [] := by decide

/-- 30_encoding.md R77, log entry 18: a number of 41 bits is no command word, neither decoded nor presented. -/
theorem test_longer_than_a_word :
    decodeTableWord 48 0x1010000003A = none ∧ State.reset.withFetchWord 48 0x1010000003A = State.reset ∧
    decodeTableWord 40 0x1010000003A = some (.add 58) := by decide

/-- 95_test_vectors.md section 2.1: ADD belongs to the producer. -/
theorem test_wrong_agent :
    whyRefused (step { State.reset with sched := [.command .consumer 0x0100000000#40] }) = some .wrongAgent := by
  decide

/-- 43_control.md R175: a producer that adds before each GET keeps SERVICE running. -/
theorem test_again :
    (after (step { withFifo [] 0 0 false [] with
      later := .again [.command .producer 0x0100000007#40, .service, .service] })).sched = [.service, .service] ∧
    (after (step { withFifo [(0, 7)] 1 0 false [0] with later := .again [.service] })).svc = .step 7 := by decide

/-- 10_state.md R41 INV1: a slot that a GET could read was written since the last RESET or overflow. -/
theorem test_stale_slot_refused :
    whyRefused (step (withFifo [(0, 11), (1, 6)] 2 0 true [0])) = some .badState := by decide

/-- 10_state.md R42: a classifier code without a name. -/
theorem test_bad_state : whyRefused (step (withCls .code3)) = some .badState := by decide

/-! ### The notation (30_encoding.md R80, R81) -/

theorem test_line : Asm.line (.edge 1000) =
    ['P', ':', ' ', 'E', 'D', 'G', 'E', ' ', '1', '0', '0', '0'] := by decide

theorem test_pkt_text : Asm.pktText { bytes := [0xAA, 0xEA], nbytes := 2 } =
    ['=', '>', ' ', 'P', 'K', 'T', '[', '0', 'x', 'A', 'A', ',', ' ', '0', 'x', 'E', 'A', ']'] := by decide

theorem test_read_line : Asm.readLine ['S', 'E', 'N', 'D', 'B', 'I', 'T', 'S', ' ', '1', ' ', '0', ' ', ';', 'x'] =
    some [(.consumer, .step 58), (.consumer, .step 58), (.consumer, .step 100), (.consumer, .step 100)] := by decide

theorem test_read_line_hex : Asm.readLine ['P', ':', ' ', 'A', 'D', 'D', ' ', '0', 'x', '3', 'A'] =
    some [(.producer, .add 58)] := by decide

/-! ### Witnesses: the hypotheses of each statement met together, one line per clause -/

/-- A state that a step does not turn away meets the invariants. -/
theorem valid_of {s : State} (h : s.rejection = none) : s.Valid := by
  unfold State.rejection at h
  split at h
  · split at h
    · next hv => exact hv
    · cases h
  · cases h

/-- A result is a next state. -/
def isNext (r : Result) : Bool :=
  match r with
  | .next _ => true
  | .fault _ => false
  | .refused _ => false

theorem next_of {r : Result} (h : isNext r = true) : r = .next (after r) := by
  cases r with
  | next s => rfl
  | fault e => cases h
  | refused e => cases h

theorem answers {r : Result} (h : isNext r = true) : ∃ t, r = .next t := ⟨_, next_of h⟩

/-- A list of time values checked one by one. -/
theorem fits_all {n : Nat} {ds : List Word} (h : ds.all (fun d => decide (Fits n d)) = true) : ∀ d ∈ ds, Fits n d :=
  fun d hd => of_decide_eq_true (List.all_eq_true.1 h d hd)

theorem safe_of {s : State} (h : s.rejection = none) (hl : s.cfg.Legal) (hp : PacketsWell s)
    (hs : s.svc.held.all (fun d => decide (Fits s.cfg.wT d)) = true) : Safe s :=
  ⟨hl, valid_of h, hp, fits_all hs⟩

theorem witness_DecodeOfEncodeIsTheOperation :
    (Instr.edge 65535).wellFormed narrow = true ∧ (Instr.dbg 1).wellFormed narrow = true := by decide

theorem witness_DecodedWordIsTheEncoding : decode narrow 0x010000FFFF#40 = .ok (.add 65535) := by decide

theorem witness_AddStoresOrOverflows :
    (Fits threeHeld.cfg.wT 0xFFFFFFFF ∧ threeHeld.fifo.wr < threeHeld.cfg.rbSlots ∧
      (threeHeld.fifo.wr + 1) % threeHeld.cfg.rbSlots = threeHeld.fifo.rd) ∧
    (Fits atLastSlot.cfg.wT 9 ∧ atLastSlot.fifo.wr < atLastSlot.cfg.rbSlots ∧
      (atLastSlot.fifo.wr + 1) % atLastSlot.cfg.rbSlots ≠ atLastSlot.fifo.rd) := by decide

theorem witness_GetReturnsOldestOrEmpty :
    (threeHeld.fifo.rd ≠ threeHeld.fifo.wr ∧ threeHeld.fifo.full = false ∧
      threeHeld.fifo.rd < threeHeld.cfg.rbSlots) ∧
    atLastSlot.fifo.rd = atLastSlot.fifo.wr ∧
    (heldBack.fifo.rd ≠ heldBack.fifo.wr ∧ heldBack.fifo.full = true) := by decide

theorem witness_RingBufferIsALossyQueue :
    (atLastSlot.cfg.Legal ∧ atLastSlot.Valid ∧ Fits atLastSlot.cfg.wT 9 ∧ atLastSlot.queue.length < small.rbCap ∧
      atLastSlot.queue = []) ∧
    (threeHeld.cfg.Legal ∧ threeHeld.Valid ∧ Fits threeHeld.cfg.wT 9 ∧ threeHeld.queue.length = small.rbCap ∧
      threeHeld.fifo.full = false ∧ threeHeld.queue = 5 :: [6, 7]) ∧
    (heldBack.cfg.Legal ∧ heldBack.Valid ∧ heldBack.fifo.full = true) :=
  ⟨⟨by decide, valid_of (by decide), by decide⟩, ⟨by decide, valid_of (by decide), by decide⟩,
    ⟨by decide, valid_of (by decide), by decide⟩⟩

theorem witness_BufferHoldsOneLessThanItsSlots :
    small.Legal ∧ atLastSlot.Valid ∧ atLastSlot.fifo.full = false ∧ atLastSlot.fifo.wr = atLastSlot.fifo.rd ∧
    (∀ d ∈ [1, 2, 3, 4], Fits atLastSlot.cfg.wT d) ∧ [1, 2, 3].length ≤ atLastSlot.cfg.rbSlots - 1 ∧
    [1, 2, 3, 4].length = atLastSlot.cfg.rbSlots :=
  ⟨by decide, valid_of (by decide), by decide, by decide, fits_all (by decide), by decide⟩

theorem witness_AddedValuesReturnInOrder :
    small.Legal ∧ atLastSlot.Valid ∧ atLastSlot.fifo.full = false ∧ atLastSlot.fifo.wr = atLastSlot.fifo.rd ∧
    (∀ i ∈ [Instr.add 5, .get, .get, .add 6, .add 0xFFFFFFFF],
      i = .get ∨ ∃ d, Fits atLastSlot.cfg.wT d ∧ i = .add d) ∧
    (added [Instr.add 5, .get, .get, .add 6, .add 0xFFFFFFFF]).length ≤ atLastSlot.cfg.rbCap := by
  refine ⟨by decide, by decide, by decide, by decide, fun i hi => ?_, by decide⟩
  simp only [List.mem_cons, List.not_mem_nil, or_false] at hi
  rcases hi with rfl | rfl | rfl | rfl | rfl
  · exact .inr ⟨5, by decide, rfl⟩
  · exact .inl rfl
  · exact .inl rfl
  · exact .inr ⟨6, by decide, rfl⟩
  · exact .inr ⟨0xFFFFFFFF, by decide, rfl⟩

theorem witness_OverflowIsReportedOnce :
    small.Legal ∧ atLastSlot.Valid ∧ atLastSlot.fifo.full = false ∧ atLastSlot.fifo.wr = atLastSlot.fifo.rd ∧
    (∀ d ∈ [1, 2, 3, 4], Fits atLastSlot.cfg.wT d) ∧ [1, 2, 3, 4].length = atLastSlot.cfg.rbCap + 1 :=
  ⟨by decide, valid_of (by decide), by decide, by decide, fits_all (by decide), by decide⟩

theorem witness_ReadsAreHeldWhileFull :
    small.Legal ∧ overflowed.Valid ∧ overflowed.fifo.full = true ∧ overflowed.fifo.wr = overflowed.fifo.rd ∧
    (∀ d ∈ [11, 12, 13], Fits overflowed.cfg.wT d) ∧ [11, 12, 13].length ≤ overflowed.cfg.rbCap :=
  ⟨by decide, valid_of (by decide), by decide, by decide, fits_all (by decide), by decide⟩

theorem witness_FullIsLatched :
    (∃ t, exec (.add 8) threeHeld = .next t ∧ threeHeld.fifo.full = false ∧ t.fifo.full = true ∧
      (threeHeld.fifo.wr + 1) % threeHeld.cfg.rbSlots = threeHeld.fifo.rd) ∧
    (∃ t, exec (.edge 232) edgeAtCapacity = .next t ∧ edgeAtCapacity.front.valid = true ∧
      (edgeAtCapacity.fifo.wr + 1) % edgeAtCapacity.cfg.rbSlots = edgeAtCapacity.fifo.rd) ∧
    (∃ t, exec .testclr heldBack = .next t ∧ heldBack.fifo.full = true ∧ t.fifo.full = false) ∧
    (∃ t, exec .get heldBack = .next t ∧ heldBack.fifo.full = true) :=
  ⟨⟨_, next_of (by decide), by decide⟩, ⟨_, next_of (by decide), by decide⟩, ⟨_, next_of (by decide), by decide⟩, ⟨_, next_of (by decide), by decide⟩⟩

theorem witness_ClassifyIsTheClosedWindows :
    Config.default.Legal ∧ classify Config.default 52 = .short ∧ classify Config.default 119 = .long ∧
    classify Config.default 120 = .bad := by decide

theorem witness_StepPairsHalves :
    small.Legal ∧ (withCls .awaitFirstHalf).Valid ∧ (withCls .shortHalfSeen).Valid ∧
    (withCls .longHalfSeen).Valid ∧
    (Fits small.wT 64 ∧ classify small 64 = .short) ∧ (Fits small.wT 90 ∧ classify small 90 = .long) ∧
    (Fits small.wT 65 ∧ classify small 65 = .bad) :=
  ⟨by decide, valid_of (by decide), valid_of (by decide), valid_of (by decide), by decide⟩

theorem witness_StepsActAsTheirBitEvents :
    small.Legal ∧ sevenBits.Valid ∧ ∀ d ∈ [58, 58, 100, 58], Fits sevenBits.cfg.wT d :=
  ⟨by decide, valid_of (by decide), fits_all (by decide)⟩

theorem witness_EventsAreStepsLessFirstHalves :
    small.Legal ∧ (withCls .longHalfSeen).Valid ∧ ∀ d ∈ [100, 58, 58, 65], Fits (withCls .longHalfSeen).cfg.wT d :=
  ⟨by decide, valid_of (by decide), fits_all (by decide)⟩

theorem witness_OneCountsAddsOrEndsThePacket :
    ((counted 255).cfg.Legal ∧ (counted 255).framer.frm = .preamble) ∧
    (sevenBits.cfg.Legal ∧ sevenBits.framer.frm = .data ∧ sevenBits.framer.awaitStop = false ∧
      sevenBits.framer.bitCount.toNat < 8 * sevenBits.cfg.pktBytes) ∧
    (twoBytes.cfg.Legal ∧ twoBytes.framer.frm = .data ∧ twoBytes.framer.awaitStop = true) := by decide

theorem witness_ZeroStartsAddsOrContinues :
    ((counted 9).cfg.Legal ∧ (counted 9).framer.frm = .preamble ∧
      (counted 9).framer.pcnt.toNat < (counted 9).cfg.minPreamble) ∧
    ((counted 10).framer.frm = .preamble ∧ (counted 10).cfg.minPreamble ≤ (counted 10).framer.pcnt.toNat) ∧
    (sevenBits.framer.frm = .data ∧ sevenBits.framer.awaitStop = false ∧
      sevenBits.framer.bitCount.toNat < 8 * sevenBits.cfg.pktBytes) ∧
    (oneByte.framer.frm = .data ∧ oneByte.framer.awaitStop = true ∧
      oneByte.framer.bitCount.toNat < 8 * oneByte.cfg.pktBytes) ∧
    (twoBytes.framer.frm = .data ∧ twoBytes.framer.awaitStop = true ∧
      twoBytes.framer.bitCount.toNat = 8 * twoBytes.cfg.pktBytes) := by decide

theorem witness_DataBitsFillAByteMsbFirst :
    small.Legal ∧ dataStart.Valid ∧ dataStart.framer.frm = .data ∧ dataStart.framer.awaitStop = false ∧
    dataStart.framer.bitCount.toNat % 8 = 0 :=
  ⟨by decide, valid_of (by decide), by decide⟩

theorem witness_PreambleNeedsTheMinimumOfOnes :
    small.Legal ∧ (counted 0).Valid ∧ (counted 0).framer.frm = .preamble ∧ (counted 0).framer.pcnt = 0 :=
  ⟨by decide, valid_of (by decide), by decide⟩

theorem witness_FramedPacketIsDelivered :
    small.Legal ∧ (counted 0).Valid ∧ (counted 0).framer.frm = .preamble ∧ (counted 0).framer.pcnt = 0 ∧
    small.minPreamble ≤ 10 ∧ 1 ≤ [(0xAA : Byte), 0xEA].length ∧ [(0xAA : Byte), 0xEA].length ≤ small.pktBytes :=
  ⟨by decide, valid_of (by decide), by decide⟩

theorem witness_PacketBeyondCapacityIsDropped :
    small.Legal ∧ (counted 0).Valid ∧ (counted 0).framer.frm = .preamble ∧ (counted 0).framer.pcnt = 0 ∧
    small.minPreamble ≤ 10 ∧ [(0x12 : Byte), 0x34].length = small.pktBytes :=
  ⟨by decide, valid_of (by decide), by decide⟩

/-- The halves of a bit, at the two ends of the bit's window. -/
def endHalves (b : Bool) : Word × Word := if b then (52, 64) else (90, 119)

theorem witness_PacketIsDecodedFromItsHalves :
    quick.Legal ∧ (State.resetWith quick).Valid ∧ (State.resetWith quick).cls = .awaitFirstHalf ∧
    (State.resetWith quick).framer.frm = .preamble ∧ (State.resetWith quick).framer.pcnt = 0 ∧
    quick.minPreamble ≤ 1 ∧ 1 ≤ [(0x03 : Byte)].length ∧ [(0x03 : Byte)].length ≤ quick.pktBytes ∧
    List.Forall₂ (HalvesOf quick) (List.replicate 1 true ++ [false] ++ packetBits [0x03])
      ((List.replicate 1 true ++ [false] ++ packetBits [0x03]).map endHalves) ∧
    (∀ p ∈ (List.replicate 1 true ++ [false] ++ packetBits [0x03]).map endHalves,
      Fits quick.wT p.1 ∧ Fits quick.wT p.2) := by
  have ends : ∀ b : Bool, HalvesOf quick b (endHalves b) := by unfold HalvesOf; decide
  refine ⟨by decide, by decide, by decide, by decide, by decide, by decide, by decide, by decide, ?_, ?_⟩
  · exact List.forall₂_map_right_iff.2 (List.forall₂_same.2 fun b _ => ends b)
  · have fit : ∀ b : Bool, Fits quick.wT (endHalves b).1 ∧ Fits quick.wT (endHalves b).2 := by decide
    intro p hp
    obtain ⟨b, -, rfl⟩ := List.mem_map.1 hp
    exact fit b

theorem witness_PacketsComeOnlyFromAnEndBit :
    (∃ t, exec .one twoBytes = .next t ∧ Instr.one ≠ .reset) ∧
    (∃ t, exec (.step 58) { twoBytes with cls := .shortHalfSeen } = .next t ∧ Instr.step 58 ≠ .reset) :=
  ⟨⟨_, next_of (by decide), by decide⟩, ⟨_, next_of (by decide), by decide⟩⟩

theorem witness_BitCountFallsOnlyToZero :
    small.Legal ∧ sevenBits.Valid ∧ (∃ t, exec .one sevenBits = .next t) ∧ (∃ t, exec .invalid sevenBits = .next t) :=
  ⟨by decide, by decide, answers (by decide), answers (by decide)⟩

theorem witness_EdgePushesTheDelta :
    (narrow.Legal ∧ Fits narrow.wT 0xFFFF ∧ Fits narrow.wT (State.resetWith narrow).front.prev ∧
      (State.resetWith narrow).fifo.wr < narrow.rbSlots ∧ (State.resetWith narrow).front.valid = false) ∧
    (Fits narrow.wT 0x2A ∧ Fits narrow.wT (edgeSeen narrow 0xFFF0).front.prev ∧
      (edgeSeen narrow 0xFFF0).fifo.wr < narrow.rbSlots ∧ (edgeSeen narrow 0xFFF0).front.valid = true) := by decide

theorem witness_DbgReturnsTheCounter :
    (0 : Word) = 0 ∧ (1 : Word) = 1 ∧ 2 ≤ (2 : Word).toNat ∧ 2 ≤ (0xFFFFFFFF : Word).toNat := by decide

theorem witness_ResetClearsTheBlock : threeHeld.cfg.Legal ∧ ¬ (State.resetWith overlapping).cfg.Legal := by decide

theorem witness_DebugCountersCountEdgesAndSteps :
    (∃ t, execAll [.edge 0, .step 58, .edge 58] (State.resetWith small) = .next t) ∧
    .reset ∉ [Instr.edge 0, .step 58, .edge 58] :=
  ⟨answers (by decide), by decide⟩

theorem witness_DebugCountersDoNotAffectDecoding :
    isDbg (.edge 58) = false ∧ ∃ t, exec (.edge 58) edgeAtCapacity = .next t :=
  ⟨by decide, answers (by decide)⟩

theorem witness_OnlyTheNamedOperationsWriteAField :
    (∃ t, exec (.edge 232) edgeAtCapacity = .next t ∧ t.fifo.mem ≠ edgeAtCapacity.fifo.mem ∧
      t.fifo.wr ≠ edgeAtCapacity.fifo.wr ∧ t.fifo.full ≠ edgeAtCapacity.fifo.full ∧
      t.front ≠ edgeAtCapacity.front ∧ t.dbg.dbg0 ≠ edgeAtCapacity.dbg.dbg0) ∧
    (∃ t, exec .get threeHeld = .next t ∧ t.fifo.rd ≠ threeHeld.fifo.rd ∧ t.resps ≠ threeHeld.resps) ∧
    (∃ t, exec (.step 58) { twoBytes with cls := .shortHalfSeen } = .next t ∧ t.cls ≠ .shortHalfSeen ∧
      t.framer ≠ twoBytes.framer ∧ t.out ≠ twoBytes.out ∧ t.dbg.dbg1 ≠ twoBytes.dbg.dbg1) :=
  ⟨⟨_, next_of (by decide), by decide⟩, ⟨_, next_of (by decide), by decide⟩, ⟨_, next_of (by decide), by decide⟩⟩

theorem witness_OnlyTheStoredSlotChanges :
    (Memory.wf atLastSlot.fifo.mem ∧ ∃ t, exec (.add 9) atLastSlot = .next t ∧
      storedSlot (.add 9) atLastSlot ≠ some 0) ∧
    (Memory.wf edgeAtCapacity.fifo.mem ∧ ∃ t, exec (.edge 232) edgeAtCapacity = .next t ∧
      edgeAtCapacity.front.valid = true ∧ storedSlot (.edge 232) edgeAtCapacity ≠ some 2) :=
  ⟨⟨by decide, _, next_of (by decide), by decide⟩, ⟨by decide, _, next_of (by decide), by decide⟩⟩

theorem witness_FifoOperationsTouchOnlyTheBuffer :
    (∃ t, exec (.add 8) threeHeld = .next t) ∧ (∃ t, exec .get threeHeld = .next t) ∧
    (∃ t, exec .testclr heldBack = .next t) :=
  ⟨answers (by decide), answers (by decide), answers (by decide)⟩

theorem witness_DecodingOperationsTouchNoSharedField :
    (∃ t, exec (.step 58) { twoBytes with cls := .shortHalfSeen } = .next t) ∧ (∃ t, exec .one twoBytes = .next t) ∧
    (∃ t, exec .zero twoBytes = .next t) ∧ (∃ t, exec .invalid twoBytes = .next t) ∧
    (∃ t, exec .ovfreset twoBytes = .next t) :=
  ⟨answers (by decide), answers (by decide), answers (by decide), answers (by decide), answers (by decide)⟩

theorem witness_EdgeTouchesOnlyTheProducerSide :
    (∃ t, exec (.edge 232) edgeAtCapacity = .next t) ∧
    (∃ t, exec (.edge 232) threeHeld = .next t ∧ threeHeld.front.valid = false) :=
  ⟨answers (by decide), ⟨_, next_of (by decide), by decide⟩⟩

theorem witness_ResetStateIsSafe : Config.default.Legal ∧ small.Legal ∧ narrow.Legal ∧ quick.Legal := by decide

/-- A consumer in SERVICE that holds a delta, with a value still buffered and a packet delivered. -/
def busy : State :=
  { threeHeld with
    framer := oneByte.framer, cls := .shortHalfSeen, svc := .step 58,
    out := [{ bytes := [0x03], nbytes := 1 }], sched := [.service] }

theorem witness_EveryStepKeepsTheInvariants : Safe busy ∧ ∃ t, step busy = .next t :=
  ⟨safe_of (by decide) (by decide) (by decide) (by decide), answers (by decide)⟩

theorem witness_EveryOperationCompletes :
    busy.cfg.Legal ∧ busy.Valid ∧
    ∀ i ∈ [Instr.add 0xFFFFFFFF, .get, .testclr, .step 0, .one, .zero, .invalid, .edge 0, .ovfreset, .dbg 1, .reset],
      i.wellFormed busy.cfg = true :=
  ⟨by decide, valid_of (by decide), by decide⟩

theorem witness_StorageStaysCanonical :
    Memory.wf threeHeld.fifo.mem ∧ ∃ t, exec (.add 8) threeHeld = .next t :=
  ⟨by decide, answers (by decide)⟩

theorem witness_CountersStayInTheirWidths :
    (small.Legal ∧ atLastSlot.Valid ∧ ∃ t, exec (.add 9) atLastSlot = .next t) ∧
    ((counted 255).Valid ∧ ∃ t, exec .one (counted 255) = .next t) ∧
    (twoBytes.Valid ∧ ∃ t, exec .one twoBytes = .next t) :=
  ⟨⟨by decide, by decide, answers (by decide)⟩, ⟨by decide, answers (by decide)⟩, ⟨by decide, answers (by decide)⟩⟩

theorem witness_StepRunsTheDecodedOperation :
    threeHeld.cfg.Legal ∧ threeHeld.Valid ∧
    ({ threeHeld with sched := [.command .producer 0x0100000008#40, .service] } : State).sched =
      .command (Instr.add 8).agent 0x0100000008#40 :: [.service] ∧
    decode threeHeld.cfg 0x0100000008#40 = .ok (.add 8) :=
  ⟨by decide, valid_of (by decide), by decide⟩

theorem witness_IdleBlockHoldsItsState :
    (twoBytes.cfg.Legal ∧ twoBytes.Valid ∧ twoBytes.sched = [] ∧ twoBytes.later = .quiet) ∧
    (({ twoBytes with later := .again [] } : State).Valid ∧ ({ twoBytes with later := .again [] } : State).later =
      .again []) :=
  ⟨⟨by decide, valid_of (by decide), by decide⟩, valid_of (by decide), rfl⟩

theorem witness_RefusedCommandsStopTheStep :
    narrow.Legal ∧ (State.resetWith narrow).Valid ∧
    decode narrow 0x0C00000000#40 = .error .reservedOpcode ∧
    decode narrow 0x0800010000#40 = .error .reservedOperand ∧
    decode narrow 0x0A00000002#40 = .error .debugIndex ∧
    (decode narrow 0x0400000000#40 = .ok (.step 0) ∧ (Instr.step 0).agent ≠ .producer) :=
  ⟨by decide, valid_of (by decide), by decide⟩

theorem witness_IllegalStatesAreNotSteppedFrom :
    ¬ (State.resetWith overlapping).cfg.Legal ∧
    ((withCls .code3).cfg.Legal ∧ (withCls .code3).cls = .code3) ∧
    ((withFramer .preamble true 0 [0, 0] 0).cfg.Legal ∧ ¬ (withFramer .preamble true 0 [0, 0] 0).Valid) :=
  ⟨by decide, by decide, by decide, fun h => absurd (h.2.2.1 rfl).2.1 (by decide)⟩

theorem witness_ServiceFollowsItsLoop :
    (Safe { threeHeld with sched := [.service] } ∧ threeHeld.svc = .idle) ∧
    Safe { threeHeld with sched := [.service], svc := .loop } ∧
    (Safe busy ∧ busy.sched = [.service] ∧ busy.svc = .step 58) ∧
    Safe { overflowed with sched := [.service], svc := .testclr } ∧
    Safe { atLastSlot with sched := [.service], svc := .testclr } ∧
    Safe { overflowed with sched := [.service], svc := .ovfreset } :=
  ⟨⟨safe_of (by decide) (by decide) (by decide) (by decide), by decide⟩,
    safe_of (by decide) (by decide) (by decide) (by decide),
    ⟨safe_of (by decide) (by decide) (by decide) (by decide), by decide⟩,
    safe_of (by decide) (by decide) (by decide) (by decide),
    safe_of (by decide) (by decide) (by decide) (by decide),
    safe_of (by decide) (by decide) (by decide) (by decide)⟩

theorem witness_ServiceEndsWhenTheProducerIsQuiet :
    (Safe threeHeld ∧ threeHeld.svc = .idle ∧ threeHeld.fifo.full = false) ∧
    (Safe heldBack ∧ heldBack.svc = .idle ∧ heldBack.fifo.full = true) :=
  ⟨⟨safe_of (by decide) (by decide) (by decide) (by decide), by decide⟩,
    ⟨safe_of (by decide) (by decide) (by decide) (by decide), by decide⟩⟩

theorem witness_ServiceClassifiesDeltasInOrder :
    (Safe busy ∧ busy.sched = [.service] ∧ busy.svc = .step 58 ∧ ∃ t, step busy = .next t) ∧
    (Safe { threeHeld with sched := [.service] } ∧ (∀ d, threeHeld.svc ≠ .step d) ∧
      ∃ t, step { threeHeld with sched := [.service] } = .next t) ∧
    (Safe { threeHeld with sched := [edgeEvent 5] } ∧ Fits small.wT 5 ∧ threeHeld.front.valid = false ∧
      ∃ t, step { threeHeld with sched := [edgeEvent 5] } = .next t) ∧
    (Safe { edgeSeen small 100 with sched := [edgeEvent 50] } ∧ Fits small.wT 50 ∧
      (edgeSeen small 100).front.valid = true ∧
      ((edgeSeen small 100).fifo.wr + 1) % small.rbSlots ≠ (edgeSeen small 100).fifo.rd ∧
      ∃ t, step { edgeSeen small 100 with sched := [edgeEvent 50] } = .next t) :=
  ⟨⟨safe_of (by decide) (by decide) (by decide) (by decide), rfl, rfl, answers (by decide)⟩,
    ⟨safe_of (by decide) (by decide) (by decide) (by decide), fun d h => (by cases h), answers (by decide)⟩,
    ⟨safe_of (by decide) (by decide) (by decide) (by decide), by decide, rfl, answers (by decide)⟩,
    ⟨safe_of (by decide) (by decide) (by decide) (by decide), by decide, rfl, by decide, answers (by decide)⟩⟩

theorem witness_OverflowIsRecoveredBeforeClassifying :
    Safe { heldBack with cls := .shortHalfSeen } ∧ heldBack.svc = .idle ∧ heldBack.fifo.full = true ∧
    (∀ e ∈ [Event.service, .service, .command .producer (encode (.add 12)), .service],
      e = .service ∨ ∃ i, ((∃ d, i = Instr.add d) ∨ ∃ u, i = Instr.edge u) ∧
        i.wellFormed heldBack.cfg = true ∧ e = .command .producer (encode i)) ∧
    [Event.service, .service, .command .producer (encode (.add 12)), .service].count .service = 3 ∧
    ∃ t, Host.Core.run Sys2Proof.core 4
      { heldBack with
        cls := .shortHalfSeen
        sched := [Event.service, .service, .command .producer (encode (.add 12)), .service] } = .next t := by
  refine ⟨safe_of (by decide) (by decide) (by decide) (by decide), rfl, rfl, fun e he => ?_, by decide, answers (by decide)⟩
  simp only [List.mem_cons, List.not_mem_nil, or_false] at he
  rcases he with rfl | rfl | rfl | rfl
  · exact .inl rfl
  · exact .inl rfl
  · exact .inr ⟨.add 12, .inl ⟨12, rfl⟩, by decide, rfl⟩
  · exact .inl rfl

theorem witness_PipelineIsTheDeltasInOrder :
    Safe (edgeSeen small 100) ∧ (edgeSeen small 100).svc = .idle ∧ (∀ u ∈ [158], Fits small.wT u) ∧
    [edgeEvent 158, .service, .service].filter (fun e => e ≠ .service) = [158].map edgeEvent ∧
    ∃ t, Host.Core.run Sys2Proof.core 3
        { edgeSeen small 100 with sched := [edgeEvent 158, .service, .service] } = .next t ∧
      t.fifo.full = false ∧ Response.testclr true ∉ t.resps.drop (edgeSeen small 100).resps.length ∧
      t.backlog = [] :=
  ⟨safe_of (by decide) (by decide) (by decide) (by decide), rfl, fits_all (by decide), by decide, ⟨_, next_of (by decide), by decide⟩⟩

theorem witness_ErrorConditionsAreRecoveredInPlace :
    (small.Legal ∧ sevenBits.Valid ∧ (∃ t, exec (.step 65) sevenBits = .next t) ∧
      .timingBad ∈ conditionsOf (.step 65) sevenBits) ∧
    (({ sevenBits with cls := .longHalfSeen } : State).Valid ∧
      (∃ t, exec (.step 58) { sevenBits with cls := .longHalfSeen } = .next t) ∧
      .timingMismatch ∈ conditionsOf (.step 58) { sevenBits with cls := .longHalfSeen }) ∧
    (threeHeld.Valid ∧ (∃ t, exec (.add 8) threeHeld = .next t ∧ threeHeld.fifo.full = false ∧ t.fifo.full = true) ∧
      .fifoOverflow ∈ conditionsOf (.add 8) threeHeld) ∧
    (twoBytes.Valid ∧ (∃ t, exec .zero twoBytes = .next t) ∧ .pktCapacity ∈ conditionsOf .zero twoBytes) :=
  ⟨⟨by decide, by decide, answers (by decide), by decide⟩, ⟨by decide, answers (by decide), by decide⟩,
    ⟨by decide, ⟨_, next_of (by decide), by decide⟩, by decide⟩, ⟨by decide, answers (by decide), by decide⟩⟩

theorem witness_LaterEventsFollowTheList :
    (({ threeHeld with later := .again [.service] } : State).sched = [] ∧
      ({ threeHeld with later := .again [.service] } : State).later = .again [.service]) ∧
    (({ threeHeld with later := .free 3 } : State).sched = [] ∧
      ({ threeHeld with later := .free 3 } : State).later = .free 3) := by decide

theorem witness_ServiceNeedNotEnd :
    Safe atLastSlot ∧ atLastSlot.svc = .idle ∧ atLastSlot.fifo.full = false ∧ atLastSlot.queue = [] ∧
    Fits atLastSlot.cfg.wT 58 :=
  ⟨safe_of (by decide) (by decide) (by decide) (by decide), by decide⟩

theorem witness_WrittenSlotsAreThoseSinceResetOrOverflow :
    (∃ t, exec (.add 9) atLastSlot = .next t ∧ storedSlot (.add 9) atLastSlot = some 3 ∧
      (atLastSlot.fifo.wr + 1) % atLastSlot.cfg.rbSlots ≠ atLastSlot.fifo.rd) ∧
    (∃ t, exec (.edge 232) edgeAtCapacity = .next t ∧ storedSlot (.edge 232) edgeAtCapacity = some 3 ∧
      (edgeAtCapacity.fifo.wr + 1) % edgeAtCapacity.cfg.rbSlots = edgeAtCapacity.fifo.rd) ∧
    (∃ t, exec .reset threeHeld = .next t) ∧
    (∃ t, exec .get threeHeld = .next t ∧ storedSlot .get threeHeld = none ∧ Instr.get ≠ .reset) :=
  ⟨⟨_, next_of (by decide), by decide⟩, ⟨_, next_of (by decide), by decide⟩, answers (by decide),
    ⟨_, next_of (by decide), by decide⟩⟩

end Sys2Proof.Tests
end

section
/-! SUPPORT. What every operation does to the ring buffer, and the latched flag (10_state.md R25, R35). -/

namespace Sys2Proof.Machine

/-- The operation performs ADD's effect: ADD itself, and EDGE once there is a previous edge (43_control.md R170). -/
def PerformsAdd (i : Instr) (s : State) : Prop :=
  (∃ d, i = .add d) ∨ (∃ u, i = .edge u ∧ s.front.valid = true)

theorem performsAdd_add (d : Word) (s : State) : PerformsAdd (.add d) s := .inl ⟨d, rfl⟩

theorem performsAdd_edge_iff (u : Word) (s : State) : PerformsAdd (.edge u) s ↔ s.front.valid = true := by
  simp [PerformsAdd]

/-- An operation that performs ADD is neither GET nor one that clears the flag. -/
theorem PerformsAdd.ne {i : Instr} {s : State} (h : PerformsAdd i s) : i ≠ .get ∧ i ≠ .testclr ∧ i ≠ .reset := by
  rcases h with ⟨d, rfl⟩ | ⟨u, rfl, -⟩ <;> exact ⟨nofun, nofun, nofun⟩

theorem frmBit_fifo {b : Bool} {s t : State} (h : frmBit b s = .next t) : t.fifo = s.fifo := by
  obtain ⟨f, p, -, rfl⟩ := frmBit_next h
  rfl

theorem frameEvent_fifo {e : BitEvent} {s t : State} (h : frameEvent e s = .next t) : t.fifo = s.fifo := by
  obtain ⟨b, f, p, -, -, rfl⟩ | ⟨-, rfl⟩ := frameEvent_next h <;> rfl

theorem execStep_fifo {d : Word} {s t : State} (h : execStep d s = .next t) : t.fifo = s.fifo := by
  obtain ⟨-, k, e, -, ⟨-, rfl⟩ | ⟨ev, -, hev⟩⟩ := execStep_next h
  · rfl
  · rw [frameEvent_fifo hev, State.setCls_fifo, State.countStep_fifo]

/-- What an operation that answers does to the ring buffer: it performs ADD, GET, TESTCLR or RESET on it, or leaves it
whole (10_state.md R35). -/
theorem exec_fifo_cases {i : Instr} {s t : State} (h : exec i s = .next t) :
    (PerformsAdd i s ∧ ∃ d, s.fifo.add s.cfg.rbSlots d = some t.fifo) ∨
    (i = .get ∧ ∃ v, s.fifo.get s.cfg.rbSlots = some (t.fifo, v)) ∨
    (i = .testclr ∧ t.fifo = s.fifo.clearFull) ∨
    (i = .reset ∧ t.fifo = s.fifo.restart) ∨
    (¬ PerformsAdd i s ∧ i ≠ .get ∧ i ≠ .testclr ∧ i ≠ .reset ∧ t.fifo = s.fifo) := by
  cases i with
  | add d =>
    obtain ⟨-, q, hq, rfl⟩ := execAdd_next h
    exact .inl ⟨performsAdd_add d s, d, hq⟩
  | get =>
    obtain ⟨q, v, hq, rfl⟩ := execGet_next h
    exact .inr (.inl ⟨rfl, v, hq⟩)
  | testclr => rw [execTestclr_next h]; exact .inr (.inr (.inl ⟨rfl, rfl⟩))
  | reset => rw [(execReset_next h).2]; exact .inr (.inr (.inr (.inl ⟨rfl, rfl⟩)))
  | edge u =>
    obtain ⟨-, ⟨hv, rfl⟩ | ⟨hv, q, hq, rfl⟩⟩ := execEdge_next h
    · simp [performsAdd_edge_iff, hv]
    · exact .inl ⟨(performsAdd_edge_iff u s).2 hv, _, hq⟩
  | step d => simp [PerformsAdd, execStep_fifo h]
  | one => simp [PerformsAdd, frmBit_fifo h]
  | zero => simp [PerformsAdd, frmBit_fifo h]
  | invalid => cases h; simp [PerformsAdd]
  | ovfreset => cases h; simp [PerformsAdd]
  | dbg idx =>
    obtain ⟨v, -, rfl⟩ := execDbg_next h
    simp [PerformsAdd]

/-- ADD's operation latches the flag on a collision and keeps it otherwise (40_fifo.md R100). -/
theorem Fifo.add_full {n : Nat} {d : Word} {q q' : Fifo} (h : q.add n d = some q') :
    q'.full = (q.full || q.collides n) := by
  obtain ⟨-, ⟨hc, rfl⟩ | ⟨hc, rfl⟩⟩ := Fifo.add_cases h <;> simp [Fifo.collides, hc]

/-- GET's operation never touches the flag (40_fifo.md R101). -/
theorem Fifo.get_full {n : Nat} {q q' : Fifo} {v : Option Word} (h : q.get n = some (q', v)) : q'.full = q.full := by
  obtain ⟨-, -, -, rfl⟩ | ⟨-, -, rfl⟩ := Fifo.get_cases h <;> rfl

/-- The flag after any operation that answers: set on a collision by those that perform ADD, cleared by TESTCLR and
RESET, and otherwise as it was. -/
theorem exec_full_cases {i : Instr} {s t : State} (h : exec i s = .next t) :
    (PerformsAdd i s ∧ t.fifo.full = (s.fifo.full || s.fifo.collides s.cfg.rbSlots)) ∨
    ((i = .testclr ∨ i = .reset) ∧ ¬ PerformsAdd i s ∧ t.fifo.full = false) ∨
    (¬ (i = .testclr ∨ i = .reset) ∧ ¬ PerformsAdd i s ∧ t.fifo.full = s.fifo.full) := by
  obtain ⟨ha, d, hq⟩ | ⟨rfl, v, hq⟩ | ⟨rfl, hq⟩ | ⟨rfl, hq⟩ | ⟨ha, -, hc, hr, hq⟩ := exec_fifo_cases h
  · exact .inl ⟨ha, Fifo.add_full hq⟩
  · exact .inr (.inr ⟨by simp, fun ha => ha.ne.1 rfl, Fifo.get_full hq⟩)
  · exact .inr (.inl ⟨.inl rfl, fun ha => ha.ne.2.1 rfl, by rw [hq, Fifo.clearFull_full]⟩)
  · exact .inr (.inl ⟨.inr rfl, fun ha => ha.ne.2.2 rfl, by rw [hq, Fifo.restart_full]⟩)
  · exact .inr (.inr ⟨not_or.2 ⟨hc, hr⟩, ha, by rw [hq]⟩)

/-- While the flag is set, GET answers empty and leaves the buffer whole (40_fifo.md R101). -/
theorem execGet_of_full {s t : State} (h : execGet s = .next t) (hf : s.fifo.full = true) :
    t = s.respond (.get none) := by
  obtain ⟨q, v, hq, rfl⟩ := execGet_next h
  obtain ⟨⟨-, hn⟩, -⟩ | ⟨-, rfl, rfl⟩ := Fifo.get_cases hq
  · simp [hf] at hn
  · rfl

/-- Settles O13, from what every operation does to the flag. -/
theorem fullIsLatched : Obligations.FullIsLatched := by
  intro i s t h
  have hget : s.fifo.full = true → i = .get → t = { s with resps := s.resps ++ [.get none] } := by
    rintro hf rfl
    exact execGet_of_full h hf
  have hcol : s.fifo.collides s.cfg.rbSlots = true ↔ (s.fifo.wr + 1) % s.cfg.rbSlots = s.fifo.rd :=
    Fifo.collides_iff _ _
  obtain ⟨ha, hf⟩ | ⟨hi, ha, hf⟩ | ⟨hi, ha, hf⟩ := exec_full_cases h
  · -- ADD performed: the flag rises exactly on a collision and never falls.
    have hi : ¬ (i = .testclr ∨ i = .reset) := not_or.2 ha.ne.2
    refine ⟨fun h0 h1 => ⟨ha, hcol.1 ?_⟩, fun _ hc => ?_, fun hi' => absurd hi' hi, fun h1 h0 => ?_, hget⟩
    · simpa [hf, h0] using h1
    · rw [hf, hcol.2 hc, Bool.or_true]
    · simp [hf, h1] at h0
  · exact ⟨fun _ h1 => by simp [hf] at h1, fun ha' => absurd ha' ha, fun _ => hf, fun _ _ => hi, hget⟩
  · exact ⟨fun h0 h1 => by simp [hf, h0] at h1, fun ha' => absurd ha' ha, fun hi' => absurd hi' hi,
      fun h1 h0 => by simp [hf, h1] at h0, hget⟩

end Sys2Proof.Machine
end

section
/-! SUPPORT. What ADD, GET and TESTCLR answer, each branch by its condition (40_fifo.md R100 to R102). -/

namespace Sys2Proof.Machine

/-- Every operation is issued by its own opcode, operand field and agent (30_encoding.md R70, R73). -/
theorem issuedAs_own (i : Instr) : IssuedAs i i.opcode i.operand i.agent := ⟨rfl, rfl⟩

/-- GET's operation takes the value at the read cursor of a readable buffer. -/
theorem Fifo.get_of_readable {n : Nat} {q : Fifo} (h : q.readable = true) (hr : q.rd < n) :
    q.get n = some ({ q with rd := nextSlot n q.rd }, some (Memory.read q.mem q.rd)) := by
  rw [Fifo.get, if_pos h, if_pos hr]

/-- GET's operation answers empty from a buffer that is not readable, and leaves it whole. -/
theorem Fifo.get_of_not_readable {n : Nat} {q : Fifo} (h : ¬ q.readable = true) : q.get n = some (q, none) := by
  rw [Fifo.get, if_neg h]

/-- ADD answers when its operation on the ring buffer does. -/
theorem exec_add_of_fifo_add {d : Word} {s : State} {q : Fifo} (hd : Fits s.cfg.wT d)
    (h : s.fifo.add s.cfg.rbSlots d = some q) : exec (.add d) s = .next (s.setFifo q) := by
  rw [exec, execAdd, withTime_of_fits hd, fifoAdd, h]

/-- GET answers when its operation on the ring buffer does. -/
theorem exec_get_of_fifo_get {s : State} {q : Fifo} {v : Option Word} (h : s.fifo.get s.cfg.rbSlots = some (q, v)) :
    exec .get s = .next ((s.setFifo q).respond (.get v)) := by
  rw [exec, execGet, h]

/-- TESTCLR answers from every state. -/
theorem exec_testclr (s : State) :
    exec .testclr s = .next ((s.setFifo s.fifo.clearFull).respond (.testclr s.fifo.full)) := rfl

/-- Settles O5, from the two cases of ADD's operation on the ring buffer. -/
theorem addStoresOrOverflows : Obligations.AddStoresOrOverflows := by
  intro d s hd hw
  obtain ⟨q, hq⟩ := Fifo.add_answers hw d
  refine ⟨issuedAs_own _, q.written, ?_⟩
  rw [exec_add_of_fifo_add hd hq]
  obtain ⟨-, ⟨hc, rfl⟩ | ⟨hc, rfl⟩⟩ := Fifo.add_cases hq
  · rw [if_pos (show (s.fifo.wr + 1) % s.cfg.rbSlots = s.fifo.rd from hc)]
    rfl
  · rw [if_neg (show ¬ (s.fifo.wr + 1) % s.cfg.rbSlots = s.fifo.rd from hc)]
    rfl

/-- Settles O6: GET's two branches are told apart by whether the buffer is readable. -/
theorem getReturnsOldestOrEmpty : Obligations.GetReturnsOldestOrEmpty := by
  intro s
  refine ⟨issuedAs_own _, fun hne hf hr => ?_, fun h => ?_⟩
  · exact exec_get_of_fifo_get (Fifo.get_of_readable ((Fifo.readable_iff _).2 ⟨hne, hf⟩) hr)
  · have hnot : ¬ s.fifo.readable = true := by
      rw [Fifo.readable_iff]
      rintro ⟨hne, hf⟩
      obtain he | hfull := h
      · exact hne he
      · simp [hf] at hfull
    exact exec_get_of_fifo_get (Fifo.get_of_not_readable hnot)

/-- Settles O7: the second TESTCLR reads the flag that the first one cleared. -/
theorem testclrReturnsAndClearsFull : Obligations.TestclrReturnsAndClearsFull := by
  intro s
  refine ⟨issuedAs_own _, exec_testclr s, ?_⟩
  simp only [execAll, exec_testclr, andThen_of_next]
  simp [Fifo.clearFull, State.setFifo, State.respond]

end Sys2Proof.Machine
end

section
/-! SUPPORT. What STEP answers, row by row of the transition table, and all that it changes (41_classifier.md R120,
R122). -/

namespace Sys2Proof.Machine

/-- Both windows of a legal configuration start above 0 (41_classifier.md R120, R121). -/
theorem classify_zero {c : Config} (h : c.Legal) : classify c 0 = .bad := by
  obtain ⟨-, -, ⟨hmin, -, hgap, -⟩, -⟩ := h
  have hshort : ¬ (c.shortMin ≤ (0 : Word).toNat ∧ (0 : Word).toNat ≤ c.shortMax) :=
    fun hw => absurd hmin (Nat.not_le.2 (Nat.lt_succ_of_le hw.1))
  have hlong : ¬ (c.longMin ≤ (0 : Word).toNat ∧ (0 : Word).toNat ≤ c.longMax) :=
    fun hw => absurd hgap (Nat.not_lt.2 (hw.1.trans (Nat.zero_le _)))
  rw [classify, if_neg hshort, if_neg hlong]

/-- The transition table has a row for each named classifier state and each class (10_state.md R42). -/
theorem pairHalf_answers {k : Cls} (h : k ≠ .code3) (x : HalfClass) : ∃ r, pairHalf k x = some r := by
  cases k with
  | awaitFirstHalf => cases x <;> exact ⟨_, rfl⟩
  | shortHalfSeen => cases x <;> exact ⟨_, rfl⟩
  | longHalfSeen => cases x <;> exact ⟨_, rfl⟩
  | code3 => exact absurd rfl h

/-- A short first half is spoiled by any second half that is not short (41_classifier.md R122). -/
theorem pairHalf_shortHalfSeen_of_ne {x : HalfClass} (h : x ≠ .short) :
    pairHalf .shortHalfSeen x = some (.awaitFirstHalf, some .invalid) := by
  cases x with
  | short => exact absurd rfl h
  | long => rfl
  | bad => rfl

/-- A long first half is spoiled by any second half that is not long (41_classifier.md R122). -/
theorem pairHalf_longHalfSeen_of_ne {x : HalfClass} (h : x ≠ .long) :
    pairHalf .longHalfSeen x = some (.awaitFirstHalf, some .invalid) := by
  cases x with
  | short => rfl
  | long => exact absurd rfl h
  | bad => rfl

/-- A row without a framer event: STEP counts and stores the half (41_classifier.md R122). -/
theorem exec_step_of_no_event {d : Word} {s : State} {k : Cls} (hd : Fits s.cfg.wT d)
    (h : pairHalf s.cls (classify s.cfg d) = some (k, none)) :
    exec (.step d) s = .next (s.countStep.setCls k) := by
  rw [exec, execStep, withTime_of_fits hd, stepDelta, h]

/-- A row with a framer event: STEP counts, moves the classifier, and performs the framer operation of that event
(41_classifier.md R122). -/
theorem exec_step_of_event {d : Word} {s : State} {k : Cls} {e : BitEvent} (hd : Fits s.cfg.wT d)
    (h : pairHalf s.cls (classify s.cfg d) = some (k, some e)) :
    exec (.step d) s = exec e.instr (s.countStep.setCls k) := by
  rw [exec_bitEvent, exec, execStep, withTime_of_fits hd, stepDelta, h]

/-- A framer event answers whenever the framer meets its invariants (42_framer.md R144 to R146). -/
theorem frameEvent_answers {s : State} (h : Framer.Ok s.cfg s.framer) (e : BitEvent) :
    ∃ t, frameEvent e s = .next t := by
  have hbit (b : Bool) : ∃ t, frmBit b s = .next t := by
    obtain ⟨f, p, hf⟩ := Framer.frmBit_answers h.room b
    exact ⟨_, by rw [frmBit, hf]⟩
  cases e with
  | one => exact hbit true
  | zero => exact hbit false
  | invalid => exact ⟨_, rfl⟩

/-- A framer event changes nothing but the framer and the packets emitted (10_state.md R35). -/
theorem frameEvent_frame {e : BitEvent} {s t : State} (h : frameEvent e s = .next t) :
    t = { s with framer := t.framer, out := t.out } := by
  obtain ⟨b, f, p, -, -, rfl⟩ | ⟨-, rfl⟩ := frameEvent_next h <;> rfl

/-- STEP answers from every valid state (60_exceptions.md R200). -/
theorem exec_step_answers {d : Word} {s : State} (hd : Fits s.cfg.wT d) (hv : s.Valid) :
    ∃ t, exec (.step d) s = .next t := by
  obtain ⟨-, hframer, -, hcls⟩ := (State.valid_iff s).1 hv
  obtain ⟨⟨k, e⟩, hrow⟩ := pairHalf_answers hcls (classify s.cfg d)
  cases e with
  | none => exact ⟨_, exec_step_of_no_event hd hrow⟩
  | some e =>
    rw [exec_step_of_event hd hrow, exec_bitEvent]
    exact frameEvent_answers (s := s.countStep.setCls k) hframer e

/-- STEP counts, and otherwise changes nothing but the classifier, the framer and the packets emitted
(10_state.md R35). -/
theorem exec_step_frame {d : Word} {s t : State} (h : exec (.step d) s = .next t) :
    t = { s.countStep with cls := t.cls, framer := t.framer, out := t.out } := by
  obtain ⟨-, k, e, -, ⟨-, rfl⟩ | ⟨ev, -, hev⟩⟩ := execStep_next h
  · rfl
  · rw [frameEvent_frame hev]; rfl

/-- Settles O15: each row of the transition table by the equation for its kind, with or without a framer event. -/
theorem stepPairsHalves : Obligations.StepPairsHalves := by
  intro d s hc hv hd counted
  have hanswer : ∃ t, exec (.step d) s = .next t ∧ t.dbg.dbg0 = s.dbg.dbg0 ∧ t.dbg.dbg1 = s.dbg.dbg1 + 1 ∧
      t.fifo = s.fifo ∧ t.front = s.front ∧ t.resps = s.resps := by
    obtain ⟨t, ht⟩ := exec_step_answers hd hv
    refine ⟨t, ht, ?_⟩
    rw [exec_step_frame ht]
    exact ⟨rfl, rfl, rfl, rfl, rfl⟩
  have hstore {k : Cls} (h : pairHalf s.cls (classify s.cfg d) = some (k, none)) :
      exec (.step d) s = .next (counted k) := exec_step_of_no_event hd h
  have hevent {e : BitEvent} (h : pairHalf s.cls (classify s.cfg d) = some (.awaitFirstHalf, some e)) :
      exec (.step d) s = exec e.instr (counted .awaitFirstHalf) := exec_step_of_event hd h
  refine ⟨issuedAs_own _, hanswer, classify_zero hc, ?_, ?_, ?_, ?_, ?_, ?_, ?_⟩
  · exact fun hk hx => hstore (by rw [hk, hx]; rfl)
  · exact fun hk hx => hstore (by rw [hk, hx]; rfl)
  · exact fun hk hx => hevent (e := .invalid) (by rw [hk, hx]; rfl)
  · exact fun hk hx => hevent (e := .one) (by rw [hk, hx]; rfl)
  · exact fun hk hx => hevent (e := .invalid) (by rw [hk, pairHalf_shortHalfSeen_of_ne hx])
  · exact fun hk hx => hevent (e := .zero) (by rw [hk, hx]; rfl)
  · exact fun hk hx => hevent (e := .invalid) (by rw [hk, pairHalf_longHalfSeen_of_ne hx])

end Sys2Proof.Machine
end

section
/-! SUPPORT. The decoder, opcode by opcode, and the encoder against it (30_encoding.md R70 to R78). -/

namespace Sys2Proof

/-! ### The operand forms -/

theorem decodeTime_of_fits {c : Config} {d : Word} (h : Fits c.wT d) (mk : Word → Instr) :
    decodeTime c d mk = .ok (mk d) := if_pos h

theorem decodeIdx_of_lt {d : Word} (h : d.toNat < Config.dbgCount) : decodeIdx d = .ok (.dbg d) := if_pos h

/-- Form `d` or `t` is refused for a reserved operand bit and for nothing else (30_encoding.md R75). -/
theorem decodeTime_error_iff (c : Config) (d : Word) (mk : Word → Instr) (e : DecodeError) :
    decodeTime c d mk = .error e ↔ e = .reservedOperand ∧ 2 ^ c.wT ≤ d.toNat := by
  unfold decodeTime
  split
  · next hf => simp [Nat.not_le.2 hf]
  · next hf => simp [Nat.not_lt.1 hf, eq_comm]

/-- Form `none` is refused for a nonzero operand and for nothing else (30_encoding.md R75). -/
theorem decodeNone_error_iff (d : Word) (i : Instr) (e : DecodeError) :
    decodeNone d i = .error e ↔ e = .reservedOperand ∧ d ≠ 0 := by
  unfold decodeNone
  split
  · next hz => simp [hz]
  · next hz => simp only [Except.error.injEq, ne_eq, hz, not_false_eq_true, and_true, eq_comm]

/-- Form `idx` is refused for an index that names no counter and for nothing else (30_encoding.md R76). -/
theorem decodeIdx_error_iff (d : Word) (e : DecodeError) :
    decodeIdx d = .error e ↔ e = .debugIndex ∧ 2 ≤ d.toNat := by
  unfold decodeIdx
  split
  · next hl => simp [Nat.not_le.2 (show d.toNat < 2 from hl)]
  · next hl => simp [Nat.not_lt.1 (show ¬ d.toNat < 2 from hl), eq_comm]

/-! ### The opcodes -/

/-- The opcodes that carry a time value (30_encoding.md R73). -/
abbrev TimeOpcode (n : Nat) : Prop := n ∈ [0x01, 0x04, 0x08]

/-- The opcodes that carry no operand (30_encoding.md R73). -/
abbrev PlainOpcode (n : Nat) : Prop := n ∈ [0x02, 0x03, 0x05, 0x06, 0x07, 0x09, 0x0B]

/-- The opcodes without an operation (30_encoding.md R74). -/
abbrev ReservedOpcode (n : Nat) : Prop := n = 0x00 ∨ 0x0C ≤ n

/-- Every opcode is of exactly one of the four kinds (30_encoding.md R73, R74). -/
theorem opcode_kinds (n : Nat) :
    (TimeOpcode n ∧ ¬ PlainOpcode n ∧ n ≠ 0x0A ∧ ¬ ReservedOpcode n) ∨
    (¬ TimeOpcode n ∧ PlainOpcode n ∧ n ≠ 0x0A ∧ ¬ ReservedOpcode n) ∨
    (¬ TimeOpcode n ∧ ¬ PlainOpcode n ∧ n = 0x0A ∧ ¬ ReservedOpcode n) ∨
    (¬ TimeOpcode n ∧ ¬ PlainOpcode n ∧ n ≠ 0x0A ∧ ReservedOpcode n) := by
  simp only [TimeOpcode, PlainOpcode, ReservedOpcode, List.mem_cons, List.not_mem_nil, or_false]
  omega

/-- Opcodes 0x01, 0x04 and 0x08 carry a time value (30_encoding.md R73). -/
theorem decode_timeOpcode {c : Config} {w : CommandWord} (h : TimeOpcode (opcodeOf w).toNat) :
    ∃ mk, decode c w = decodeTime c (operandOf w) mk := by
  simp only [TimeOpcode, List.mem_cons, List.not_mem_nil, or_false] at h
  obtain h | h | h := h <;> exact ⟨_, by rw [decode, h]; rfl⟩

/-- Opcodes 0x02, 0x03, 0x05, 0x06, 0x07, 0x09 and 0x0B carry no operand (30_encoding.md R73). -/
theorem decode_plainOpcode {c : Config} {w : CommandWord} (h : PlainOpcode (opcodeOf w).toNat) :
    ∃ i, decode c w = decodeNone (operandOf w) i := by
  simp only [PlainOpcode, List.mem_cons, List.not_mem_nil, or_false] at h
  obtain h | h | h | h | h | h | h := h <;> exact ⟨_, by rw [decode, h]; rfl⟩

/-- Opcode 0x0A carries a debug index (30_encoding.md R73). -/
theorem decode_debugOpcode {c : Config} {w : CommandWord} (h : (opcodeOf w).toNat = 0x0A) :
    decode c w = decodeIdx (operandOf w) := by
  rw [decode, h]
  rfl

/-- Every other opcode is reserved (30_encoding.md R74). -/
theorem decode_reservedOpcode {c : Config} {w : CommandWord} (h : ReservedOpcode (opcodeOf w).toNat) :
    decode c w = .error .reservedOpcode := by
  unfold decode
  split
  case h_12 => rfl
  all_goals omega

/-- A word with an operation's opcode and operand field is its encoding (30_encoding.md R70). -/
theorem encode_eq_of_fields {w : CommandWord} {i : Instr} (ho : (opcodeOf w).toNat = i.opcode.toNat)
    (hd : operandOf w = i.operand) : encode i = w := by
  rw [encode, ← BitVec.eq_of_toNat_eq ho, ← hd]
  exact fields_append w

@[simp] theorem opcodeOf_encode (i : Instr) : opcodeOf (encode i) = i.opcode := opcodeOf_append _ _

@[simp] theorem operandOf_encode (i : Instr) : operandOf (encode i) = i.operand := operandOf_append _ _

/-- A well-formed operation's word decodes to it (30_encoding.md R78). -/
theorem decode_encode {c : Config} {i : Instr} (h : i.wellFormed c = true) : decode c (encode i) = .ok i := by
  unfold decode
  rw [opcodeOf_encode, operandOf_encode]
  cases i with
  | add d => exact decodeTime_of_fits (of_decide_eq_true h) .add
  | step d => exact decodeTime_of_fits (of_decide_eq_true h) .step
  | edge t => exact decodeTime_of_fits (of_decide_eq_true h) .edge
  | dbg idx => exact decodeIdx_of_lt (of_decide_eq_true h)
  | get | testclr | one | zero | invalid | ovfreset | reset => rfl

/-- Settles O1: the decoder finds both fields of the word again. -/
theorem decodeOfEncodeIsTheOperation : Obligations.DecodeOfEncodeIsTheOperation := fun _ _ => decode_encode

/-- Settles O2: each opcode's operand form says what was decoded, and the word is its two fields. -/
theorem decodedWordIsTheEncoding : Obligations.DecodedWordIsTheEncoding := by
  intro c w i h
  have time {mk : Word → Instr} (h : decodeTime c (operandOf w) mk = .ok i)
      (hwf : ∀ d, (mk d).wellFormed c = decide (Fits c.wT d)) (ho : ∀ d, (opcodeOf w).toNat = (mk d).opcode.toNat)
      (hd : ∀ d, (mk d).operand = d) : i.wellFormed c = true ∧ encode i = w := by
    obtain ⟨hf, rfl⟩ := decodeTime_ok h
    exact ⟨by rw [hwf]; exact decide_eq_true hf, encode_eq_of_fields (ho _) (hd _).symm⟩
  have plain {j : Instr} (h : decodeNone (operandOf w) j = .ok i) (hwf : j.wellFormed c = true)
      (ho : (opcodeOf w).toNat = j.opcode.toNat) (hd : j.operand = 0) : i.wellFormed c = true ∧ encode i = w := by
    obtain ⟨hz, rfl⟩ := decodeNone_ok h
    exact ⟨hwf, encode_eq_of_fields ho (by rw [hz, hd])⟩
  unfold decode at h
  split at h
  case h_1 ho => exact time h (fun _ => rfl) (fun _ => ho) fun _ => rfl
  case h_4 ho => exact time h (fun _ => rfl) (fun _ => ho) fun _ => rfl
  case h_8 ho => exact time h (fun _ => rfl) (fun _ => ho) fun _ => rfl
  case h_10 ho =>
    obtain ⟨hl, rfl⟩ := decodeIdx_ok h
    exact ⟨decide_eq_true hl, encode_eq_of_fields ho rfl⟩
  case h_12 => cases h
  all_goals
    next ho => exact plain h rfl ho rfl

/-- Settles O3, kind of opcode by kind of opcode: each kind is refused by its operand form's own reason. -/
theorem reservedWordsAreRefusedByReason : Obligations.ReservedWordsAreRefusedByReason := by
  intro c w
  obtain ⟨ht, hp, hd, hr⟩ | ⟨ht, hp, hd, hr⟩ | ⟨-, -, hd, -⟩ | ⟨ht, hp, hd, hr⟩ := opcode_kinds (opcodeOf w).toNat
  · obtain ⟨mk, hdec⟩ := decode_timeOpcode (c := c) ht
    simp only [hdec, decodeTime_error_iff, ht, hp, hd, hr]
    simp
  · obtain ⟨j, hdec⟩ := decode_plainOpcode (c := c) hp
    simp only [hdec, decodeNone_error_iff, ht, hp, hd, hr]
    simp
  · simp [decode_debugOpcode hd, decodeIdx_error_iff, hd]
  · simp only [decode_reservedOpcode hr, ht, hp, hd, hr]
    simp

/-- Settles O4: the decoder evaluated on the words of R82. -/
theorem exampleWordsDecode : Obligations.ExampleWordsDecode := by
  unfold Obligations.ExampleWordsDecode
  decide

end Sys2Proof
end

section
/-! SUPPORT. What every operation does to each part of the state, when it answers, and that it answers from every
valid state (10_state.md R35, 60_exceptions.md R200). -/

namespace Sys2Proof

/-! ### A legal configuration, a valid state and a safe one, part by part -/

section Legal

variable {c : Config} (h : c.Legal)
include h

theorem Config.Legal.wT_le : c.wT ≤ 32 := h.1.2
theorem Config.Legal.two_le_rbSlots : 2 ≤ c.rbSlots := h.2.1.1
theorem Config.Legal.window_gap : c.shortMax < c.longMin := h.2.2.1.2.2.1
theorem Config.Legal.minPreamble_le : c.minPreamble ≤ c.pcntMax := h.2.2.2.1.2.1
theorem Config.Legal.pcntMax_le : c.pcntMax ≤ 255 := h.2.2.2.1.2.2
theorem Config.Legal.pktBytes_pos : 1 ≤ c.pktBytes := h.2.2.2.2.1
theorem Config.Legal.pktBytes_le : c.pktBytes ≤ 31 := h.2.2.2.2.2

end Legal

section Valid

variable {s : Machine.State} (h : s.Valid)
include h

theorem Machine.State.Valid.fifoOk : Machine.Fifo.Ok s.cfg s.fifo := (s.valid_iff.1 h).1
theorem Machine.State.Valid.framerOk : Machine.Framer.Ok s.cfg s.framer := (s.valid_iff.1 h).2.1
theorem Machine.State.Valid.front_fits : Fits s.cfg.wT s.front.prev := (s.valid_iff.1 h).2.2.1
theorem Machine.State.Valid.cls_ne_code3 : s.cls ≠ .code3 := (s.valid_iff.1 h).2.2.2

end Valid

theorem Safe.legal {s : Machine.State} (h : Safe s) : s.cfg.Legal := h.1

theorem Safe.valid {s : Machine.State} (h : Safe s) : s.Valid := h.2.1

end Sys2Proof

namespace Sys2Proof.Machine

/-! ### The ring buffer -/

/-- The value an operation stores into the ring buffer: ADD's operand, and EDGE's delta when it pushes one
(43_control.md R170). -/
def storedValue (i : Instr) (s : State) : Option Word :=
  match i with
  | .add d => some d
  | .edge u => if s.front.valid then some (timeDelta s.cfg u s.front.prev) else none
  | _ => none

theorem storedValue_edge {s : State} (h : s.front.valid = true) (u : Word) :
    storedValue (.edge u) s = some (timeDelta s.cfg u s.front.prev) := by simp [storedValue, h]

/-- An operation stores a value exactly when it performs ADD. -/
theorem storedValue_eq_none_iff (i : Instr) (s : State) : storedValue i s = none ↔ ¬ PerformsAdd i s := by
  cases i <;> simp [storedValue, PerformsAdd]

/-- An operation stores into the slot at the write cursor, or into none. -/
theorem storedSlot_eq (i : Instr) (s : State) : storedSlot i s = (storedValue i s).map (fun _ => s.fifo.wr) := by
  cases i with
  | edge u => cases hv : s.front.valid <;> simp [storedSlot, storedValue, hv]
  | _ => rfl

/-- An operation that stores a value performs ADD's operation with it, and the value has W_T bits. -/
theorem exec_stores {i : Instr} {s t : State} {v : Word} (h : exec i s = .next t) (hv : storedValue i s = some v) :
    s.fifo.add s.cfg.rbSlots v = some t.fifo ∧ (s.cfg.wT ≤ 32 → Fits s.cfg.wT v) := by
  cases i with
  | add d =>
    obtain ⟨hd, q, hq, rfl⟩ := execAdd_next h
    cases hv
    exact ⟨hq, fun _ => hd⟩
  | edge u =>
    obtain ⟨-, ⟨hf, -⟩ | ⟨hf, q, hq, rfl⟩⟩ := execEdge_next h
    · simp [storedValue, hf] at hv
    · rw [storedValue_edge hf] at hv
      cases hv
      exact ⟨hq, fun hw => timeDelta_fits hw _ _⟩
  | _ => cases hv

/-- What an operation that answers does to the ring buffer, by the value it stores and by its name. -/
theorem exec_fifo_next {i : Instr} {s t : State} (h : exec i s = .next t) :
    (∃ v, storedValue i s = some v ∧ s.fifo.add s.cfg.rbSlots v = some t.fifo ∧ (s.cfg.wT ≤ 32 → Fits s.cfg.wT v)) ∨
    (storedValue i s = none ∧
      ((i = .get ∧ ∃ v, s.fifo.get s.cfg.rbSlots = some (t.fifo, v)) ∨ (i = .testclr ∧ t.fifo = s.fifo.clearFull) ∨
       (i = .reset ∧ t.fifo = s.fifo.restart) ∨
       (i ≠ .get ∧ i ≠ .testclr ∧ i ≠ .reset ∧ t.fifo = s.fifo))) := by
  cases hv : storedValue i s with
  | some v => exact .inl ⟨v, rfl, exec_stores h hv⟩
  | none =>
    have hna := (storedValue_eq_none_iff i s).1 hv
    obtain ⟨ha, -⟩ | hg | hc | hr | ⟨-, h1, h2, h3, h4⟩ := exec_fifo_cases h
    · exact absurd ha hna
    · exact .inr ⟨rfl, .inl hg⟩
    · exact .inr ⟨rfl, .inr (.inl hc)⟩
    · exact .inr ⟨rfl, .inr (.inr (.inl hr))⟩
    · exact .inr ⟨rfl, .inr (.inr (.inr ⟨h1, h2, h3, h4⟩))⟩

/-- GET's operation leaves all of the ring buffer but the read cursor. -/
theorem Fifo.get_frame {n : Nat} {q q' : Fifo} {v : Option Word} (h : q.get n = some (q', v)) :
    q' = { q with rd := q'.rd } := by
  obtain ⟨-, -, -, rfl⟩ | ⟨-, -, rfl⟩ := Fifo.get_cases h <;> rfl

/-- An operation that stores nothing leaves the storage. -/
theorem exec_mem_of_not_storing {i : Instr} {s t : State} (h : exec i s = .next t) (hv : storedValue i s = none) :
    t.fifo.mem = s.fifo.mem := by
  obtain ⟨v, hs, -⟩ | ⟨-, ⟨-, v, hq⟩ | ⟨-, hq⟩ | ⟨-, hq⟩ | ⟨-, -, -, hq⟩⟩ := exec_fifo_next h
  · rw [hv] at hs; cases hs
  · rw [Fifo.get_frame hq]
  · rw [hq, Fifo.clearFull_mem]
  · rw [hq, Fifo.restart_mem]
  · rw [hq]

/-- ADD's operation writes its value at the write cursor, whether it overflows or not (40_fifo.md R100). -/
theorem Fifo.add_mem {n : Nat} {d : Word} {q q' : Fifo} (h : q.add n d = some q') :
    q'.mem = Memory.write q.mem q.wr d := by
  obtain ⟨-, ⟨-, rfl⟩ | ⟨-, rfl⟩⟩ := Fifo.add_cases h <;> rfl

/-- An operation that stores a value writes it at the write cursor. -/
theorem exec_mem_of_storing {i : Instr} {s t : State} {v : Word} (h : exec i s = .next t)
    (hv : storedValue i s = some v) : t.fifo.mem = Memory.write s.fifo.mem s.fifo.wr v :=
  Fifo.add_mem (exec_stores h hv).1

/-! ### The framer and the packets -/

/-- The framer event of a bit. -/
def bitEvent (b : Bool) : BitEvent := if b then .one else .zero

/-- The framer event an operation performs: its own, or the one STEP's pairing gives (30_encoding.md R79,
41_classifier.md R122, 43_control.md R171). -/
def framerEvent (i : Instr) (s : State) : Option BitEvent :=
  match i with
  | .step d => (pairHalf s.cls (classify s.cfg d)).bind Prod.snd
  | .one => some .one
  | .zero => some .zero
  | .invalid => some .invalid
  | .ovfreset => some .invalid
  | _ => none

theorem framerEvent_step {d : Word} {s : State} {k : Cls} {e : Option BitEvent}
    (h : pairHalf s.cls (classify s.cfg d) = some (k, e)) : framerEvent (.step d) s = e :=
  congrArg (fun row => row.bind Prod.snd) h

/-- A framer event feeds a bit to `FrmBit`, or resets the framer with no event emitted. -/
theorem frameEvent_cases {e : BitEvent} {s t : State} (h : frameEvent e s = .next t) :
    (e = .invalid ∧ t.framer = Framer.initial s.cfg ∧ t.out = s.out) ∨
    (∃ b p, e = bitEvent b ∧ s.framer.frmBit s.cfg b = some (t.framer, p) ∧ t.out = s.out ++ p.toList) := by
  obtain ⟨b, f, p, he, hf, rfl⟩ | ⟨he, rfl⟩ := frameEvent_next h
  · exact .inr ⟨b, p, he, hf, rfl⟩
  · exact .inl ⟨he, rfl, rfl⟩

/-- An operation but RESET performs its framer event on a state with the same framer, or leaves framer and packets. -/
theorem exec_framerEvent {i : Instr} {s t : State} (h : exec i s = .next t) (hi : i ≠ .reset) :
    (framerEvent i s = none ∧ t.framer = s.framer ∧ t.out = s.out) ∨
    (∃ e u, framerEvent i s = some e ∧ frameEvent e u = .next t ∧
      u.framer = s.framer ∧ u.out = s.out ∧ u.cfg = s.cfg) := by
  cases i with
  | add d => obtain ⟨-, q, -, rfl⟩ := execAdd_next h; exact .inl ⟨rfl, rfl, rfl⟩
  | get => obtain ⟨q, v, -, rfl⟩ := execGet_next h; exact .inl ⟨rfl, rfl, rfl⟩
  | testclr => cases h; exact .inl ⟨rfl, rfl, rfl⟩
  | step d =>
    obtain ⟨-, k, e, hrow, ⟨rfl, rfl⟩ | ⟨ev, rfl, hev⟩⟩ := execStep_next h
    · exact .inl ⟨framerEvent_step hrow, rfl, rfl⟩
    · exact .inr ⟨ev, s.countStep.setCls k, framerEvent_step hrow, hev, rfl, rfl, rfl⟩
  | one => exact .inr ⟨.one, s, rfl, h, rfl, rfl, rfl⟩
  | zero => exact .inr ⟨.zero, s, rfl, h, rfl, rfl, rfl⟩
  | invalid => exact .inr ⟨.invalid, s, rfl, h, rfl, rfl, rfl⟩
  | edge u => obtain ⟨-, ⟨-, rfl⟩ | ⟨-, q, -, rfl⟩⟩ := execEdge_next h <;> exact .inl ⟨rfl, rfl, rfl⟩
  | ovfreset => exact .inr ⟨.invalid, s.setCls .awaitFirstHalf, rfl, h, rfl, rfl, rfl⟩
  | dbg idx => obtain ⟨v, -, rfl⟩ := execDbg_next h; exact .inl ⟨rfl, rfl, rfl⟩
  | reset => exact absurd rfl hi

/-- What an operation but RESET does to the framer and to the packets emitted, by the framer event it performs
(42_framer.md section 2). -/
theorem exec_framer_cases {i : Instr} {s t : State} (h : exec i s = .next t) (hi : i ≠ .reset) :
    (framerEvent i s = none ∧ t.framer = s.framer ∧ t.out = s.out) ∨
    (framerEvent i s = some .invalid ∧ t.framer = Framer.initial s.cfg ∧ t.out = s.out) ∨
    (∃ b p, framerEvent i s = some (bitEvent b) ∧ s.framer.frmBit s.cfg b = some (t.framer, p) ∧
      t.out = s.out ++ p.toList) := by
  obtain hn | ⟨e, u, he, hu, hfr, hout, hcfg⟩ := exec_framerEvent h hi
  · exact .inl hn
  · rw [he, ← hfr, ← hout, ← hcfg]
    obtain ⟨rfl, h1⟩ | ⟨b, p, rfl, h1⟩ := frameEvent_cases hu
    · exact .inr (.inl ⟨rfl, h1⟩)
    · exact .inr (.inr ⟨b, p, rfl, h1⟩)

/-! ### The read and write matrix -/

/-- The fields each operation may change, as one equation per operation between the states before and after
(10_state.md R35). -/
def WritesOnly (i : Instr) (s t : State) : Prop :=
  match i with
  | .add _ => t = { s with fifo := t.fifo }
  | .get => t = { s with fifo := { s.fifo with rd := t.fifo.rd }, resps := t.resps }
  | .testclr => t = { s with fifo := { s.fifo with full := false }, resps := t.resps }
  | .step _ => t = { s.countStep with cls := t.cls, framer := t.framer, out := t.out }
  | .one => t = { s with framer := t.framer, out := t.out }
  | .zero => t = { s with framer := t.framer, out := t.out }
  | .invalid => t = { s with framer := t.framer }
  | .edge u => t = { s.countEdge with fifo := t.fifo, front := { prev := u, valid := true } }
  | .ovfreset => t = { s with cls := .awaitFirstHalf, framer := t.framer }
  | .dbg _ => t = { s with resps := t.resps }
  | .reset => t = resetBlock s

/-- Every operation that answers changes only the fields its row of the matrix names (10_state.md R35). -/
theorem exec_writesOnly {i : Instr} {s t : State} (h : exec i s = .next t) : WritesOnly i s t := by
  cases i with
  | add d => obtain ⟨-, q, -, rfl⟩ := execAdd_next h; rfl
  | get =>
    obtain ⟨q, v, hq, rfl⟩ := execGet_next h
    exact congrArg (fun q => (s.setFifo q).respond (.get v)) (Fifo.get_frame hq)
  | testclr => rw [execTestclr_next h]; rfl
  | step d => exact exec_step_frame h
  | one => exact frameEvent_frame (e := .one) h
  | zero => exact frameEvent_frame (e := .zero) h
  | invalid => cases h; rfl
  | edge u => obtain ⟨-, ⟨-, rfl⟩ | ⟨-, q, -, rfl⟩⟩ := execEdge_next h <;> rfl
  | ovfreset => cases h; rfl
  | dbg idx => obtain ⟨v, -, rfl⟩ := execDbg_next h; rfl
  | reset => exact (execReset_next h).2

/-- No operation changes the configuration, the consumer's place or the events to come (10_state.md R36, R38). -/
theorem exec_agents {i : Instr} {s t : State} (h : exec i s = .next t) :
    t.cfg = s.cfg ∧ t.svc = s.svc ∧ t.sched = s.sched ∧ t.later = s.later := by
  have hw := exec_writesOnly h
  cases i <;> (rw [show t = _ from hw]; exact ⟨rfl, rfl, rfl, rfl⟩)

theorem exec_cfg {i : Instr} {s t : State} (h : exec i s = .next t) : t.cfg = s.cfg := (exec_agents h).1

theorem exec_svc {i : Instr} {s t : State} (h : exec i s = .next t) : t.svc = s.svc := (exec_agents h).2.1

theorem exec_sched {i : Instr} {s t : State} (h : exec i s = .next t) : t.sched = s.sched := (exec_agents h).2.2.1

/-- The classifier leaves STEP by a row of the transition table (41_classifier.md R122). -/
theorem execStep_cls {d : Word} {s t : State} (h : execStep d s = .next t) :
    ∃ e, pairHalf s.cls (classify s.cfg d) = some (t.cls, e) := by
  obtain ⟨-, k, e, hrow, ⟨-, rfl⟩ | ⟨ev, -, hev⟩⟩ := execStep_next h
  · exact ⟨e, hrow⟩
  · rw [frameEvent_frame hev]; exact ⟨e, hrow⟩

/-- EDGE's operand is a value of W_T bits. -/
theorem exec_edge_fits {u : Word} {s t : State} (h : exec (.edge u) s = .next t) : Fits s.cfg.wT u :=
  (execEdge_next h).1

end Sys2Proof.Machine
end

section
/-! SUPPORT. Every operation answers from every valid state, and keeps the invariants (10_state.md R41,
60_exceptions.md R200). -/

namespace Sys2Proof.Machine

/-! ### EDGE, DBG and RESET by their conditions -/

/-- The first edge counts and is remembered (43_control.md R170). -/
theorem exec_edge_first {u : Word} {s : State} (hu : Fits s.cfg.wT u) (hv : s.front.valid = false) :
    exec (.edge u) s = .next (rememberEdge u s.countEdge) := by
  rw [exec, execEdge, withTime_of_fits hu, edgeAt]
  simp [hv]

/-- Every later edge performs ADD's operation with the delta as well (43_control.md R170). -/
theorem exec_edge_push {u : Word} {s : State} {q : Fifo} (hu : Fits s.cfg.wT u) (hv : s.front.valid = true)
    (hq : s.fifo.add s.cfg.rbSlots (timeDelta s.cfg u s.front.prev) = some q) :
    exec (.edge u) s = .next (rememberEdge u (s.countEdge.setFifo q)) := by
  rw [exec, execEdge, withTime_of_fits hu, edgeAt]
  simp [hv, fifoAdd, hq]

theorem exec_dbg_of_read {idx : Word} {s : State} {v : Word} (h : s.dbg.read idx = some v) :
    exec (.dbg idx) s = .next (s.respond (.dbg v)) := by
  rw [exec, execDbg, h]

/-- An index below DBG_COUNT names a counter (30_encoding.md R76). -/
theorem DebugCounters.read_answers (d : DebugCounters) {idx : Word} (h : idx.toNat < 2) : ∃ v, d.read idx = some v := by
  unfold DebugCounters.read
  obtain h0 | h1 : idx.toNat = 0 ∨ idx.toNat = 1 := by omega
  · exact ⟨d.dbg0, by rw [h0]; rfl⟩
  · exact ⟨d.dbg1, by rw [h1]; rfl⟩

/-- No counter has an index of 2 or more (30_encoding.md R76). -/
theorem DebugCounters.read_of_le (d : DebugCounters) {idx : Word} (h : 2 ≤ idx.toNat) : d.read idx = none := by
  unfold DebugCounters.read
  split
  · omega
  · omega
  · rfl

theorem exec_reset {s : State} (h : s.cfg.Legal) : exec .reset s = .next (resetBlock s) := if_pos h

/-! ### Every operation answers -/

/-- Every well-formed operation answers from every valid state (60_exceptions.md R200). -/
theorem exec_answers {i : Instr} {s : State} (hc : s.cfg.Legal) (hv : s.Valid) (hw : i.wellFormed s.cfg = true) :
    ∃ t, exec i s = .next t := by
  have hfifo := hv.fifoOk
  cases i with
  | add d =>
    obtain ⟨q, hq⟩ := Fifo.add_answers hfifo.wr_lt d
    exact ⟨_, exec_add_of_fifo_add (of_decide_eq_true hw) hq⟩
  | get =>
    obtain ⟨q, v, hq, -⟩ := hfifo.get
    exact ⟨_, exec_get_of_fifo_get hq⟩
  | testclr => exact ⟨_, exec_testclr s⟩
  | step d => exact exec_step_answers (of_decide_eq_true hw) hv
  | one => exact frameEvent_answers hv.framerOk .one
  | zero => exact frameEvent_answers hv.framerOk .zero
  | invalid => exact ⟨_, rfl⟩
  | edge u =>
    have hu : Fits s.cfg.wT u := of_decide_eq_true hw
    cases hf : s.front.valid with
    | false => exact ⟨_, exec_edge_first hu hf⟩
    | true =>
      obtain ⟨q, hq⟩ := Fifo.add_answers hfifo.wr_lt (timeDelta s.cfg u s.front.prev)
      exact ⟨_, exec_edge_push hu hf hq⟩
  | ovfreset => exact ⟨_, rfl⟩
  | dbg idx =>
    obtain ⟨v, hr⟩ := s.dbg.read_answers (of_decide_eq_true hw : idx.toNat < 2)
    exact ⟨_, exec_dbg_of_read hr⟩
  | reset => exact ⟨_, exec_reset hc⟩

/-! ### The invariants are kept, part by part -/

theorem exec_fifo_ok {i : Instr} {s t : State} (h : exec i s = .next t) (hc : s.cfg.Legal)
    (hq : Fifo.Ok s.cfg s.fifo) : Fifo.Ok s.cfg t.fifo := by
  obtain ⟨v, -, hadd, hfits⟩ | ⟨-, ⟨-, v, hget⟩ | ⟨-, he⟩ | ⟨-, he⟩ | ⟨-, -, -, he⟩⟩ := exec_fifo_next h
  · exact (hq.add (hfits hc.wT_le) hadd).1
  · obtain ⟨q', v', hget', hok, -⟩ := hq.get
    rw [hget] at hget'
    cases hget'
    exact hok
  · rw [he]; exact hq.clearFull
  · rw [he]; exact hq.restart
  · rw [he]; exact hq

/-- The well-formedness of one emitted event (42_framer.md R147). -/
def Pkt.Well (c : Config) (p : Pkt) : Prop := 1 ≤ p.nbytes ∧ p.nbytes ≤ c.pktBytes ∧ p.bytes.length = p.nbytes

theorem exec_framer_ok {i : Instr} {s t : State} (h : exec i s = .next t) (hc : s.cfg.Legal)
    (hf : Framer.Ok s.cfg s.framer) :
    Framer.Ok s.cfg t.framer ∧ ((∀ p ∈ s.out, p.Well s.cfg) → ∀ p ∈ t.out, p.Well s.cfg) := by
  by_cases hi : i = .reset
  · subst hi
    rw [(execReset_next h).2]
    exact ⟨Framer.initial_ok hc, fun _ => nofun⟩
  obtain ⟨-, he, ho⟩ | ⟨-, he, ho⟩ | ⟨b, p, -, hbit, ho⟩ := exec_framer_cases h hi
  · rw [he, ho]; exact ⟨hf, id⟩
  · rw [he, ho]; exact ⟨Framer.initial_ok hc, id⟩
  · obtain ⟨f', p', hbit', hok, hwell⟩ := hf.frmBit hc b
    rw [hbit] at hbit'
    cases hbit'
    refine ⟨hok, fun hp k hk => ?_⟩
    rw [ho, List.mem_append, Option.mem_toList] at hk
    exact hk.elim (hp k) (hwell k)

/-- No row of the transition table leads to code 3 (10_state.md R42). -/
theorem pairHalf_ne_code3 {k k' : Cls} {x : HalfClass} {e : Option BitEvent} (h : pairHalf k x = some (k', e)) :
    k' ≠ .code3 := by
  cases k <;> cases x <;> cases h <;> exact nofun

theorem exec_cls_ne_code3 {i : Instr} {s t : State} (h : exec i s = .next t) (hk : s.cls ≠ .code3) :
    t.cls ≠ .code3 := by
  have hw := exec_writesOnly h
  cases i with
  | step d => exact pairHalf_ne_code3 (execStep_cls h).choose_spec
  | ovfreset | reset => rw [show t = _ from hw]; exact nofun
  | _ => rw [show t = _ from hw]; exact hk

theorem exec_front_fits {i : Instr} {s t : State} (h : exec i s = .next t) (hf : Fits s.cfg.wT s.front.prev) :
    Fits s.cfg.wT t.front.prev := by
  have hw := exec_writesOnly h
  cases i with
  | edge u => rw [show t = _ from hw]; exact exec_edge_fits h
  | reset => rw [show t = _ from hw]; exact Nat.pow_pos (by omega)
  | _ => rw [show t = _ from hw]; exact hf

/-- An operation that answers keeps the invariants (10_state.md R41). -/
theorem exec_valid {i : Instr} {s t : State} (h : exec i s = .next t) (hc : s.cfg.Legal) (hv : s.Valid) : t.Valid := by
  rw [State.valid_iff, exec_cfg h]
  exact ⟨exec_fifo_ok h hc hv.fifoOk, (exec_framer_ok h hc hv.framerOk).1,
    exec_front_fits h hv.front_fits, exec_cls_ne_code3 h hv.cls_ne_code3⟩

/-- An operation that answers emits well-formed packets only (42_framer.md R147). -/
theorem exec_packetsWell {i : Instr} {s t : State} (h : exec i s = .next t) (hc : s.cfg.Legal) (hv : s.Valid)
    (hp : PacketsWell s) : PacketsWell t := by
  rw [PacketsWell, exec_cfg h]
  exact (exec_framer_ok h hc hv.framerOk).2 hp

/-- The values a GET returns have W_T bits, so the delta SERVICE goes on with does (43_control.md R174). -/
theorem serviceNext_fits {p : ServicePoint} {s t : State} (h : exec (serviceInstr p) s = .next t) (hv : s.Valid) :
    ∀ d ∈ (serviceNext p t.resps).held, Fits s.cfg.wT d := by
  have get (h : execGet s = .next t) : ∀ d ∈ (serviceNext .idle t.resps).held, Fits s.cfg.wT d := by
    obtain ⟨q, v, hq, rfl⟩ := execGet_next h
    obtain ⟨q', v', hq', -, ⟨d, rfl, hd, -⟩ | ⟨rfl, -⟩⟩ := hv.fifoOk.get <;> rw [hq] at hq' <;> cases hq'
    · simpa [serviceNext, ServicePoint.held] using hd
    · simp [serviceNext, ServicePoint.held]
  cases p with
  | idle => exact get h
  | loop => exact get h
  | step d => exact nofun
  | testclr =>
    rw [execTestclr_next h]
    cases s.fifo.full <;> simp [serviceNext, ServicePoint.held]
  | ovfreset => exact nofun

/-- Taking an event off the schedule leaves a safe state safe. -/
theorem nextEvent_safe {s s' : State} {e : Event} (h : nextEvent s = some (e, s')) (hs : Safe s) : Safe s' := by
  obtain ⟨es, l, rfl⟩ := nextEvent_moves h
  exact hs

/-- A command that answers leaves a safe state safe. -/
theorem exec_safe {i : Instr} {s t : State} (h : exec i s = .next t) (hs : Safe s) : Safe t := by
  obtain ⟨hc, hv, hp, hsvc⟩ := hs
  obtain ⟨hcfg, hsv, -, -⟩ := exec_agents h
  refine ⟨hcfg ▸ hc, exec_valid h hc hv, exec_packetsWell h hc hv hp, ?_⟩
  rw [ServiceFits, hcfg, hsv]
  exact hsvc

/-- Settles O40: a step holds its state, runs a command, or moves SERVICE on, and each leaves a safe state safe. -/
theorem everyStepKeepsTheInvariants : Obligations.EveryStepKeepsTheInvariants := by
  intro s t hs h
  obtain ⟨-, -, ⟨-, rfl⟩ | ⟨a, w, s', i, hn, -, hi⟩ | ⟨s', u, hn, hu, rfl⟩⟩ := step_next h
  · exact hs
  · exact exec_safe hi (nextEvent_safe hn hs)
  · have hs' := nextEvent_safe hn hs
    obtain ⟨hc, hv, hp, -⟩ := exec_safe hu hs'
    refine ⟨hc, hv, hp, ?_⟩
    rw [ServiceFits, State.setSvc_cfg, exec_cfg hu]
    exact serviceNext_fits hu hs'.valid

/-- Settles O41, from the answer of each operation and the invariants it keeps. -/
theorem everyOperationCompletes : Obligations.EveryOperationCompletes := by
  intro i s hc hv hw
  obtain ⟨t, ht⟩ := exec_answers hc hv hw
  exact ⟨t, ht, exec_valid ht hc hv⟩

/-- Settles O42: a store writes one slot, which keeps the form, and nothing else touches the storage. -/
theorem storageStaysCanonical : Obligations.StorageStaysCanonical := by
  intro i s t hwf h
  cases hv : storedValue i s with
  | none => rw [exec_mem_of_not_storing h hv]; exact hwf
  | some v => rw [exec_mem_of_storing h hv]; exact Memory.write_wf hwf _ _

/-- W_IDX bits hold every slot number (00_scope.md R8). -/
theorem lt_two_pow_wIdx {c : Config} {i : Nat} (h : i < c.rbSlots) : i < 2 ^ c.wIdx := by
  have : c.rbSlots - 1 < 2 ^ (Nat.log2 (c.rbSlots - 1) + 1) := Nat.lt_log2_self
  rw [Config.wIdx]
  omega

/-- Settles O43: the bounds are invariants, which every operation keeps. -/
theorem countersStayInTheirWidths : Obligations.CountersStayInTheirWidths := by
  intro i s t hc hv h
  have ht := exec_valid h hc hv
  exact ⟨lt_two_pow_wIdx ht.fifoOk.wr_lt, lt_two_pow_wIdx ht.fifoOk.rd_lt, ht.framerOk.pcnt_le, ht.framerOk.bits_le,
    ht.framerOk.data_pcnt⟩

/-! ### The state after reset -/

theorem resetWith_valid {c : Config} (hc : c.Legal) : (State.resetWith c).Valid := by
  have hpos : 0 < c.rbSlots := Nat.lt_of_lt_of_le Nat.two_pos hc.two_le_rbSlots
  have hcount : (State.resetWith c).fifo.count c.rbSlots = 0 := by simp [State.resetWith, Fifo.count]
  rw [State.valid_iff]
  refine ⟨⟨Memory.reset_wf c, nofun, ⟨List.nodup_nil, nofun⟩, hpos, hpos, fun k hk => ?_⟩,
    Framer.initial_ok hc, Nat.pow_pos Nat.two_pos, nofun⟩
  exact absurd (hcount ▸ hk) (Nat.not_lt_zero k)

theorem resetWith_safe {c : Config} (hc : c.Legal) : Safe (State.resetWith c) :=
  ⟨hc, resetWith_valid hc, nofun, nofun⟩

/-- Settles O39: the default configuration is a legal one, and the reset values are those of R40. -/
theorem resetStateIsSafe : Obligations.ResetStateIsSafe :=
  ⟨resetWith_safe (by decide), fun _ => resetWith_safe,
    fun _ _ => ⟨rfl, rfl, rfl, rfl, rfl, rfl, rfl, rfl, rfl, rfl, rfl, rfl, rfl, rfl⟩⟩

end Sys2Proof.Machine
end

section
/-! SUPPORT. What each operation leaves unchanged, what the debug counters count, and where packets and the other
signals come from (10_state.md R33, R35, 60_exceptions.md R201). -/

namespace Sys2Proof.Machine

/-! ### The read and write matrix -/

/-- Settles O34: the equation of the operation's row decides every clause. -/
theorem onlyTheNamedOperationsWriteAField : Obligations.OnlyTheNamedOperationsWriteAField := by
  intro i s t h
  have hw := exec_writesOnly h
  cases i <;> (rw [show t = _ from hw]; simp)

/-- Settles O35: a store is read back from its slot, and every other slot reads as before. -/
theorem onlyTheStoredSlotChanges : Obligations.OnlyTheStoredSlotChanges := by
  intro i s t hwf h
  refine ⟨fun j hj => ?_, fun d hi => ?_, fun u hi hv => ?_⟩
  · cases hv : storedValue i s with
    | none => rw [exec_mem_of_not_storing h hv]
    | some v =>
      rw [exec_mem_of_storing h hv]
      refine Memory.read_write_other _ v fun he => hj ?_
      rw [storedSlot_eq, hv, he]
      rfl
  · subst hi
    rw [exec_mem_of_storing h rfl, Memory.read_write_same hwf]
  · subst hi
    rw [exec_mem_of_storing h (storedValue_edge hv u), Memory.read_write_same hwf]

/-- Settles O36, from the rows of ADD, GET and TESTCLR. -/
theorem fifoOperationsTouchOnlyTheBuffer : Obligations.FifoOperationsTouchOnlyTheBuffer := by
  rintro i s t (⟨d, rfl⟩ | rfl | rfl) h
  · rw [show t = _ from exec_writesOnly h]
    exact ⟨rfl, rfl, rfl, rfl, rfl, rfl, rfl, rfl, rfl, fun _ => rfl, nofun, nofun⟩
  · rw [show t = _ from exec_writesOnly h]
    exact ⟨rfl, rfl, rfl, rfl, rfl, rfl, rfl, rfl, rfl, nofun, fun _ => ⟨rfl, rfl, rfl, rfl⟩, nofun⟩
  · rw [show t = _ from exec_writesOnly h]
    exact ⟨rfl, rfl, rfl, rfl, rfl, rfl, rfl, rfl, rfl, nofun, nofun, fun _ => ⟨rfl, rfl, rfl, rfl⟩⟩

/-- Settles O37, from the rows of the five decoding operations. -/
theorem decodingOperationsTouchNoSharedField : Obligations.DecodingOperationsTouchNoSharedField := by
  rintro i s t hi h
  have hw := exec_writesOnly h
  obtain ⟨d, rfl⟩ | rfl | rfl | rfl | rfl := hi <;> rw [show t = _ from hw]
  · exact ⟨rfl, rfl, rfl, rfl, rfl, rfl, rfl, rfl, rfl, fun hd => absurd rfl (hd d), by simp⟩
  · exact ⟨rfl, rfl, rfl, rfl, rfl, rfl, rfl, rfl, rfl, fun _ => rfl, fun _ => rfl⟩
  · exact ⟨rfl, rfl, rfl, rfl, rfl, rfl, rfl, rfl, rfl, fun _ => rfl, fun _ => rfl⟩
  · exact ⟨rfl, rfl, rfl, rfl, rfl, rfl, rfl, rfl, rfl, fun _ => rfl, fun _ => rfl⟩
  · exact ⟨rfl, rfl, rfl, rfl, rfl, rfl, rfl, rfl, rfl, fun _ => rfl, by simp⟩

/-- Settles O38: the first edge leaves the buffer, and a later one moves the read cursor only when ADD overflows. -/
theorem edgeTouchesOnlyTheProducerSide : Obligations.EdgeTouchesOnlyTheProducerSide := by
  intro u s t h
  obtain ⟨-, ⟨hv, rfl⟩ | ⟨hv, q, hq, rfl⟩⟩ := execEdge_next h
  · exact ⟨rfl, rfl, rfl, rfl, rfl, rfl, rfl, rfl, rfl, .inl rfl, fun _ => rfl⟩
  · refine ⟨rfl, rfl, rfl, rfl, rfl, rfl, rfl, rfl, rfl, ?_, by simp [hv]⟩
    obtain ⟨-, ⟨hc, rfl⟩ | ⟨-, rfl⟩⟩ := Fifo.add_cases hq
    · exact .inr ⟨hv, hc, rfl, rfl⟩
    · exact .inl rfl

/-! ### The debug counters -/

/-- One operation but RESET counts once in `dbg[0]` if it is EDGE, and once in `dbg[1]` if it is STEP (10_state.md
R33). -/
theorem exec_counts {i : Instr} {s t : State} (h : exec i s = .next t) (hi : i ≠ .reset) :
    t.dbg.dbg0 = s.dbg.dbg0 + (if isEdge i then 1 else 0) ∧ t.dbg.dbg1 = s.dbg.dbg1 + (if isStep i then 1 else 0) := by
  have hw := exec_writesOnly h
  cases i with
  | reset => exact absurd rfl hi
  | _ => rw [show t = _ from hw]; simp [isEdge, isStep]

/-- The count of a list's first operation and of the others, modulo 2^32. -/
theorem ofNat_countP_cons (p : Instr → Bool) (i : Instr) (is : List Instr) :
    BitVec.ofNat 32 ((i :: is).countP p) = (if p i then 1 else 0) + BitVec.ofNat 32 (is.countP p) := by
  cases h : p i <;> simp [h, BitVec.ofNat_add, BitVec.add_comm]

/-- Settles O32, by induction on the run. -/
theorem debugCountersCountEdgesAndSteps : Obligations.DebugCountersCountEdgesAndSteps := by
  intro ops
  induction ops with
  | nil =>
    intro s t h _
    cases h
    simp
  | cons i is ih =>
    intro s t h hr
    obtain ⟨s', hs', ht⟩ := andThen_next h
    obtain ⟨h0, h1⟩ := exec_counts hs' fun hi => hr (hi ▸ List.mem_cons_self ..)
    obtain ⟨ih0, ih1⟩ := ih s' t ht fun hm => hr (List.mem_cons_of_mem _ hm)
    rw [ih0, ih1, h0, h1, ofNat_countP_cons, ofNat_countP_cons, BitVec.add_assoc, BitVec.add_assoc]
    exact ⟨rfl, rfl⟩

/-- A framer event does the same from every state with this framer, configuration and output. -/
theorem frameEvent_congr {e : BitEvent} {s t u : State} (h : frameEvent e s = .next t) (hf : u.framer = s.framer)
    (hc : u.cfg = s.cfg) (ho : u.out = s.out) : frameEvent e u = .next { u with framer := t.framer, out := t.out } := by
  have bit {b : Bool} (h : frmBit b s = .next t) :
      frmBit b u = .next { u with framer := t.framer, out := t.out } := by
    obtain ⟨f, p, hbit, rfl⟩ := frmBit_next h
    rw [← hf, ← hc] at hbit
    rw [frmBit, hbit]
    simp [State.setFramer, State.emit, State.setOut, ho]
  cases e with
  | one => exact bit h
  | zero => exact bit h
  | invalid =>
    cases h
    simp [frameEvent, State.frmReset, State.setFramer, Framer.frmReset_eq_initial, hc, ho]

/-- Settles O33: no operation but DBG reads the counters. -/
theorem debugCountersDoNotAffectDecoding : Obligations.DebugCountersDoNotAffectDecoding := by
  intro i s t d hi h
  have event {e : BitEvent} (h : frameEvent e s = .next t) :
      ∃ t', frameEvent e { s with dbg := d } = .next t' ∧ { t' with dbg := t.dbg } = t := by
    refine ⟨_, frameEvent_congr h rfl rfl rfl, ?_⟩
    rw [show t = _ from frameEvent_frame h]
  cases i with
  | add v =>
    obtain ⟨hv, q, hq, rfl⟩ := execAdd_next h
    exact ⟨_, exec_add_of_fifo_add (s := { s with dbg := d }) hv hq, rfl⟩
  | get =>
    obtain ⟨q, v, hq, rfl⟩ := execGet_next h
    exact ⟨_, exec_get_of_fifo_get (s := { s with dbg := d }) hq, rfl⟩
  | testclr => cases h; exact ⟨_, rfl, rfl⟩
  | step v =>
    obtain ⟨hv, k, e, hrow, ⟨rfl, rfl⟩ | ⟨ev, rfl, hev⟩⟩ := execStep_next h
    · exact ⟨_, exec_step_of_no_event (s := { s with dbg := d }) hv hrow, rfl⟩
    · rw [exec_step_of_event (s := { s with dbg := d }) hv hrow, exec_bitEvent]
      refine ⟨_, frameEvent_congr hev rfl rfl rfl, ?_⟩
      rw [show t = _ from frameEvent_frame hev]
      rfl
  | one => exact event (e := .one) h
  | zero => exact event (e := .zero) h
  | invalid => cases h; exact ⟨_, rfl, rfl⟩
  | edge u =>
    obtain ⟨hu, ⟨hv, rfl⟩ | ⟨hv, q, hq, rfl⟩⟩ := execEdge_next h
    · exact ⟨_, exec_edge_first (s := { s with dbg := d }) hu hv, rfl⟩
    · exact ⟨_, exec_edge_push (s := { s with dbg := d }) hu hv hq, rfl⟩
  | ovfreset => cases h; exact ⟨_, rfl, rfl⟩
  | dbg idx => cases hi
  | reset =>
    obtain ⟨hc, rfl⟩ := execReset_next h
    exact ⟨_, exec_reset (s := { s with dbg := d }) hc, rfl⟩

/-! ### Packets and the bit count -/

/-- The row of a short pair is the one that performs ONE (41_classifier.md R122). -/
theorem pairHalf_one_iff (k : Cls) (x : HalfClass) :
    (pairHalf k x).bind Prod.snd = some .one ↔ k = .shortHalfSeen ∧ x = .short := by
  cases k <;> cases x <;> simp [pairHalf]

/-- The row of a long pair is the one that performs ZERO (41_classifier.md R122). -/
theorem pairHalf_zero_iff (k : Cls) (x : HalfClass) :
    (pairHalf k x).bind Prod.snd = some .zero ↔ k = .longHalfSeen ∧ x = .long := by
  cases k <;> cases x <;> simp [pairHalf]

/-- A 1 is fed to the framer by ONE, and by a STEP that completes a short pair. -/
theorem framerEvent_eq_one {i : Instr} {s : State} (h : framerEvent i s = some .one) :
    i = .one ∨ ∃ d, i = .step d ∧ s.cls = .shortHalfSeen ∧ classify s.cfg d = .short := by
  cases i with
  | one => exact .inl rfl
  | step d => exact .inr ⟨d, rfl, (pairHalf_one_iff s.cls (classify s.cfg d)).1 h⟩
  | _ => cases h

/-- Settles O26: only the 9th bit 1 makes `FrmBit` emit, and only ONE and a short pair feed a 1. -/
theorem packetsComeOnlyFromAnEndBit : Obligations.PacketsComeOnlyFromAnEndBit := by
  intro i s t h hi
  obtain ⟨-, -, ho⟩ | ⟨-, -, ho⟩ | ⟨b, p, he, hbit, ho⟩ := exec_framer_cases h hi
  · exact .inl ho
  · exact .inl ho
  · obtain ⟨-, -, rfl⟩ | ⟨-, -, -, -, rfl⟩ | ⟨hd, ha, rfl, hf, rfl⟩ | ⟨-, -, -, -, -, rfl⟩ | ⟨-, -, -, -, -, rfl⟩ :=
      Framer.frmBit_cases hbit
    · exact .inl (by simpa using ho)
    · exact .inl (by simpa using ho)
    · exact .inr ⟨hd, ha, framerEvent_eq_one he, ho, by rw [hf]; exact ⟨rfl, rfl⟩⟩
    · exact .inl (by simpa using ho)
    · exact .inl (by simpa using ho)

/-- `FrmBit` counts a bit, clears the count, or leaves it (10_state.md R31). -/
theorem Framer.frmBit_bitCount {c : Config} {b : Bool} {f f' : Framer} {p : Option Pkt} (hc : c.Legal)
    (h : f.frmBit c b = some (f', p)) : f.bitCount.toNat ≤ f'.bitCount.toNat ∨ f'.bitCount = 0 := by
  obtain ⟨-, rfl, -⟩ | ⟨-, -, hroom, rfl, -⟩ | ⟨-, -, -, rfl, -⟩ | ⟨-, -, -, -, rfl, -⟩ | ⟨-, -, -, -, rfl, -⟩ :=
    Framer.frmBit_cases h
  · left
    unfold Framer.preambleBit
    split_ifs <;> exact le_refl _
  · left
    rw [Framer.dataBit_eq]
    have hbytes := hc.pktBytes_le
    show _ ≤ (f.bitCount + 1).toNat
    rw [bitCount_succ (by omega)]
    omega
  · exact .inr rfl
  · exact .inr rfl
  · exact .inl (le_refl _)

/-- Settles O27: every operation leaves the framer, resets it, or feeds one bit. -/
theorem bitCountFallsOnlyToZero : Obligations.BitCountFallsOnlyToZero := by
  intro i s t hc _ h
  by_cases hi : i = .reset
  · subst hi
    rw [(execReset_next h).2]
    exact .inr rfl
  obtain ⟨-, hf, -⟩ | ⟨-, hf, -⟩ | ⟨b, p, -, hbit, -⟩ := exec_framer_cases h hi
  · rw [hf]; exact .inl (le_refl _)
  · rw [hf]; exact .inr rfl
  · exact Framer.frmBit_bitCount hc hbit

/-! ### The history of written slots -/

/-- Settles O56, by whether the operation stores a value, and whether the store overflows. -/
theorem writtenSlotsAreThoseSinceResetOrOverflow : Obligations.WrittenSlotsAreThoseSinceResetOrOverflow := by
  intro i s t h
  rw [storedSlot_eq]
  obtain ⟨v, hv, hadd, -⟩ | ⟨hv, hq⟩ := exec_fifo_next h
  · have hr : i ≠ .reset := by rintro rfl; cases hv
    rw [hv]
    obtain ⟨-, ⟨hc, hq⟩ | ⟨hc, hq⟩⟩ := Fifo.add_cases hadd
    · rw [hq]
      exact ⟨fun _ _ hn => absurd hc hn, fun _ _ _ => rfl, fun hi => absurd hi hr, nofun⟩
    · rw [hq]
      refine ⟨fun j hj _ k => ?_, fun _ _ hn => absurd hn hc, fun hi => absurd hi hr, nofun⟩
      cases hj
      exact List.mem_insert_iff
  · rw [hv]
    refine ⟨nofun, nofun, ?_, fun _ hr => ?_⟩
    · rintro rfl
      rw [(execReset_next h).2]
      rfl
    · obtain ⟨-, v, hget⟩ | ⟨-, hq⟩ | ⟨hi, -⟩ | ⟨-, -, -, hq⟩ := hq
      · rw [Fifo.get_frame hget]
      · rw [hq, Fifo.clearFull_written]
      · exact absurd hi hr
      · rw [hq]

/-! ### Error conditions (60_exceptions.md R201) -/

/-- The conditions of an ADD, and of an EDGE that pushes, are those of a store; STEP and ZERO have their own. -/
theorem mem_conditionsOf_iff (e : ErrorCondition) (i : Instr) (s : State) :
    e ∈ conditionsOf i s ↔
      (PerformsAdd i s ∧ e ∈ addConditions s) ∨ (∃ d, i = .step d ∧ e ∈ stepConditions d s) ∨
      (i = .zero ∧ e ∈ zeroConditions s) := by
  cases i with
  | edge u => cases hv : s.front.valid <;> simp [conditionsOf, PerformsAdd, hv]
  | _ => simp [conditionsOf, PerformsAdd]

theorem mem_addConditions_iff (e : ErrorCondition) (s : State) :
    e ∈ addConditions s ↔ e = .fifoOverflow ∧ s.fifo.collides s.cfg.rbSlots = true := by
  unfold addConditions
  split
  · next h => simp [h]
  · next h => simp [h]

theorem mem_zeroConditions_iff (e : ErrorCondition) (s : State) :
    e ∈ zeroConditions s ↔ e = .pktCapacity ∧ capacityReached s.cfg s.framer = true := by
  unfold zeroConditions
  split
  · next h => simp [h]
  · next h => simp [h]

theorem mem_stepConditions_iff (e : ErrorCondition) (d : Word) (s : State) :
    e ∈ stepConditions d s ↔
      (e = .timingBad ∧ classify s.cfg d = .bad) ∨ (e = .timingMismatch ∧ mismatched s.cls (classify s.cfg d) = true) ∨
      (e = .pktCapacity ∧ framerEvent (.step d) s = some .zero ∧ capacityReached s.cfg s.framer = true) := by
  rw [show framerEvent (.step d) s = some .zero ↔ _ from pairHalf_zero_iff s.cls (classify s.cfg d)]
  simp only [stepConditions, List.mem_append, or_assoc]
  refine or_congr ?_ (or_congr ?_ ?_)
  · split
    · next h => simp [h]
    · next h => simp [h]
  · split
    · next h => simp [h]
    · next h => simp [h]
  · split
    · next h => simp [h, mem_zeroConditions_iff]
    · next h => simp [h]

/-- A BAD half, and a second half of another class, spoil the pair (41_classifier.md R122, 60_exceptions.md R205). -/
theorem pairHalf_spoiled {k : Cls} {x : HalfClass} (hk : k ≠ .code3) (h : x = .bad ∨ mismatched k x = true) :
    pairHalf k x = some (.awaitFirstHalf, some .invalid) := by
  cases k <;> cases x <;> simp [mismatched, pairHalf] at h hk ⊢

/-- A STEP that performs INVALID resets classifier and framer and emits nothing (41_classifier.md R122). -/
theorem exec_step_spoiled {d : Word} {s t : State} (h : exec (.step d) s = .next t)
    (hrow : pairHalf s.cls (classify s.cfg d) = some (.awaitFirstHalf, some .invalid)) :
    t.cls = .awaitFirstHalf ∧ t.framer = Framer.initial s.cfg ∧ t.out = s.out := by
  rw [exec_step_of_event (execStep_next h).1 hrow] at h
  cases h
  exact ⟨rfl, rfl, rfl⟩

/-- A 0 as the 9th bit after PKT_BYTES bytes resets the framer and emits nothing (42_framer.md R148). -/
theorem Framer.frmBit_of_capacityReached {c : Config} {f : Framer} (h : capacityReached c f = true) :
    f.frmBit c false = some (Framer.initial c, none) := by
  simp only [capacityReached, Bool.and_eq_true, decide_eq_true_eq] at h
  obtain ⟨⟨hd, ha⟩, hb⟩ := h
  simp [Framer.frmBit, Framer.stopBit, hd, ha, hb, Framer.frmReset_eq_initial]

/-- A store that collides empties the buffer and latches the flag (40_fifo.md R100). -/
theorem exec_overflows {i : Instr} {s t : State} (h : exec i s = .next t) (hc : s.cfg.Legal)
    (hq : Fifo.Ok s.cfg s.fifo) (ha : PerformsAdd i s) (hcol : s.fifo.collides s.cfg.rbSlots = true) :
    t.fifo.full = true ∧ t.fifo.wr = 0 ∧ t.fifo.rd = 0 ∧ t.queue = [] := by
  obtain ⟨v, hv⟩ := Option.ne_none_iff_exists'.1 fun hn => (storedValue_eq_none_iff i s).1 hn ha
  obtain ⟨hadd, hfits⟩ := exec_stores h hv
  obtain ⟨-, ⟨hn, -⟩ | ⟨-, hvals, hfull, hwr, hrd⟩⟩ := hq.add (hfits hc.wT_le) hadd
  · exact absurd ((Fifo.collides_iff _ _).1 hcol) hn
  · exact ⟨hfull, hwr, hrd, by rw [State.queue_eq, exec_cfg h, hvals]⟩

/-- A 0 fed to a full packet resets the framer and emits nothing (42_framer.md R148). -/
theorem exec_drops {i : Instr} {s t : State} (h : exec i s = .next t) (he : framerEvent i s = some .zero)
    (hcap : capacityReached s.cfg s.framer = true) : t.framer = Framer.initial s.cfg ∧ t.out = s.out := by
  have hi : i ≠ .reset := by rintro rfl; cases he
  obtain ⟨hn, -⟩ | ⟨hn, -⟩ | ⟨b, p, hb, hbit, ho⟩ := exec_framer_cases h hi
  · rw [he] at hn; cases hn
  · rw [he] at hn; cases hn
  · rw [he] at hb
    cases b with
    | true => cases hb
    | false =>
      rw [Framer.frmBit_of_capacityReached hcap] at hbit
      obtain ⟨hf, rfl⟩ := Prod.mk.inj (Option.some.inj hbit)
      exact ⟨hf.symm, by simpa using ho⟩

/-- Settles O53, condition by condition, from what makes each arise. -/
theorem errorConditionsAreRecoveredInPlace : Obligations.ErrorConditionsAreRecoveredInPlace := by
  intro i s t hc hv h
  simp only [mem_conditionsOf_iff, mem_addConditions_iff, mem_stepConditions_iff, mem_zeroConditions_iff, reduceCtorEq,
    false_and, true_and, and_false, exists_false, false_or, or_false]
  refine ⟨?_, ?_, ?_, ?_, fun h0 h1 => ?_⟩
  · rintro ⟨d, rfl, hx⟩
    exact exec_step_spoiled h (pairHalf_spoiled hv.cls_ne_code3 (.inl hx))
  · rintro ⟨d, rfl, hx⟩
    exact exec_step_spoiled h (pairHalf_spoiled hv.cls_ne_code3 (.inr hx))
  · rintro ⟨ha, hcol⟩
    exact exec_overflows h hc hv.fifoOk ha hcol
  · rintro (⟨d, rfl, he, hcap⟩ | ⟨rfl, hcap⟩)
    · exact exec_drops h he hcap
    · exact exec_drops h rfl hcap
  · obtain ⟨ha, hf⟩ | ⟨-, -, hf⟩ | ⟨-, -, hf⟩ := exec_full_cases h
    · exact ⟨ha, by simpa [hf, h0] using h1⟩
    · rw [hf] at h1; cases h1
    · rw [hf, h0] at h1; cases h1

end Sys2Proof.Machine
end

section
/-! SUPPORT. What the classifier's windows, the framer's operations, EDGE, DBG, RESET and a step answer, case by case
(41_classifier.md R120, 42_framer.md R144 to R146, 43_control.md R170 to R173, 30_encoding.md R78). -/

namespace Sys2Proof.Machine

/-! ### Classifier -/

/-- Settles O14: by the gap between them, a delta is in at most one window. -/
theorem classifyIsTheClosedWindows : Obligations.ClassifyIsTheClosedWindows := by
  intro c d hc
  have hgap : c.shortMax < c.longMin := hc.window_gap
  by_cases hs : c.shortMin ≤ d.toNat ∧ d.toNat ≤ c.shortMax
  · have hl : ¬ (c.longMin ≤ d.toNat ∧ d.toNat ≤ c.longMax) := by omega
    have hclass : classify c d = .short := by rw [classify, if_pos hs]
    simp only [hclass, hs, hl, classify_zero hc]
    simp
  · by_cases hl : c.longMin ≤ d.toNat ∧ d.toNat ≤ c.longMax
    · have hclass : classify c d = .long := by rw [classify, if_neg hs, if_pos hl]
      simp only [hclass, hs, hl, classify_zero hc]
      simp
    · have hclass : classify c d = .bad := by rw [classify, if_neg hs, if_neg hl]
      simp only [hclass, hs, hl, classify_zero hc]
      simp

/-! ### Framer -/

/-- ONE and ZERO answer when `FrmBit` does (42_framer.md R144, R145). -/
theorem exec_bitInstr_of_frmBit {b : Bool} {s : State} {f : Framer} {p : Option Pkt}
    (h : s.framer.frmBit s.cfg b = some (f, p)) :
    exec (bitInstr b) s = .next { s with framer := f, out := s.out ++ p.toList } := by
  have hbit : frmBit b s = .next { s with framer := f, out := s.out ++ p.toList } := by
    rw [frmBit, h]
    rfl
  cases b with
  | true => exact hbit
  | false => exact hbit

/-- A bit that emits nothing changes the framer alone. -/
theorem exec_bitInstr_of_no_packet {b : Bool} {s : State} {f : Framer} (h : s.framer.frmBit s.cfg b = some (f, none)) :
    exec (bitInstr b) s = .next { s with framer := f } := by
  rw [exec_bitInstr_of_frmBit h]
  simp

theorem Framer.frmBit_preamble {c : Config} {f : Framer} (h : f.frm = .preamble) (b : Bool) :
    f.frmBit c b = some (f.preambleBit c b, none) := by
  rw [Framer.frmBit, h]

theorem Framer.frmBit_data {c : Config} {f : Framer} (hd : f.frm = .data) (ha : f.awaitStop = false)
    (hroom : f.bitCount.toNat < 8 * c.pktBytes) (b : Bool) : f.frmBit c b = some (f.dataBit b, none) := by
  simp [Framer.frmBit, hd, ha, hroom]

theorem Framer.frmBit_stop {c : Config} {f : Framer} (hd : f.frm = .data) (ha : f.awaitStop = true) (b : Bool) :
    f.frmBit c b = some (f.stopBit c b) := by
  simp [Framer.frmBit, hd, ha]

/-- A data bit in terms of the bit count before it, while the count cannot wrap. -/
theorem Framer.dataBit_of_room {c : Config} (hc : c.Legal) {f : Framer} (ha : f.awaitStop = false)
    (hroom : f.bitCount.toNat < 8 * c.pktBytes) (b : Bool) :
    f.dataBit b = { f with
      pkt := f.pkt.modify (f.bitCount.toNat / 8) (shiftIn b)
      bitCount := f.bitCount + 1
      awaitStop := decide ((f.bitCount.toNat + 1) % 8 = 0) } := by
  have hbytes := hc.pktBytes_le
  rw [Framer.dataBit_eq, ha, Bool.false_or, bitCount_succ (by omega)]
  rfl

theorem shiftIn_true : shiftIn true = fun x : Byte => (x <<< 1) ||| 1#8 := rfl

theorem shiftIn_false : shiftIn false = fun x : Byte => x <<< 1 := by
  funext x
  simp [shiftIn]

/-- Settles O18, by `FrmBit`'s cases on a 1. -/
theorem oneCountsAddsOrEndsThePacket : Obligations.OneCountsAddsOrEndsThePacket := by
  intro s hc
  refine ⟨issuedAs_own _, fun hp => ?_, fun hd ha hroom => ?_, fun hd ha => ?_⟩
  · exact exec_bitInstr_of_no_packet (b := true) (Framer.frmBit_preamble hp true)
  · rw [← shiftIn_true, ← Framer.dataBit_of_room hc ha hroom true]
    exact exec_bitInstr_of_no_packet (b := true) (Framer.frmBit_data hd ha hroom true)
  · exact exec_bitInstr_of_frmBit (b := true) (Framer.frmBit_stop hd ha true)

/-- Settles O19, by `FrmBit`'s cases on a 0. -/
theorem zeroStartsAddsOrContinues : Obligations.ZeroStartsAddsOrContinues := by
  intro s hc
  refine ⟨issuedAs_own _, fun hp hlt => ?_, fun hp hle => ?_, fun hd ha hroom => ?_, fun hd ha hlt => ?_,
    fun hd ha hfull => ?_⟩
  · have hbit := Framer.frmBit_preamble (c := s.cfg) hp false
    rw [Framer.preambleBit, if_neg nofun, if_neg (Nat.not_le.2 hlt)] at hbit
    exact exec_bitInstr_of_no_packet (b := false) hbit
  · have hbit := Framer.frmBit_preamble (c := s.cfg) hp false
    rw [Framer.preambleBit, if_neg nofun, if_pos hle] at hbit
    exact exec_bitInstr_of_no_packet (b := false) hbit
  · rw [← shiftIn_false, ← Framer.dataBit_of_room hc ha hroom false]
    exact exec_bitInstr_of_no_packet (b := false) (Framer.frmBit_data hd ha hroom false)
  · have hbit := Framer.frmBit_stop (c := s.cfg) hd ha false
    rw [Framer.stopBit, if_neg nofun, if_neg (Nat.ne_of_lt hlt)] at hbit
    exact exec_bitInstr_of_no_packet (b := false) hbit
  · have hcap : capacityReached s.cfg s.framer = true := by simp [capacityReached, hd, ha, hfull]
    exact exec_bitInstr_of_no_packet (b := false) (Framer.frmBit_of_capacityReached hcap)

/-- Settles O20: INVALID leaves the reset framer, and so does INVALID from there. -/
theorem invalidResetsTheFramerOnly : Obligations.InvalidResetsTheFramerOnly := by
  intro s n
  refine ⟨issuedAs_own _, ?_⟩
  induction n generalizing s with
  | zero => rfl
  | succ n ih => exact ih s.frmReset

/-! ### Front-end, recovery, debug, reset -/

/-- Settles O29: the framing reset leaves the reset framer, whatever it held. -/
theorem ovfresetResetsClassifierAndFramer : Obligations.OvfresetResetsClassifierAndFramer :=
  fun _ => ⟨issuedAs_own _, rfl⟩

/-- Settles O30, by which counter the index names. -/
theorem dbgReturnsTheCounter : Obligations.DbgReturnsTheCounter := by
  intro idx s
  refine ⟨issuedAs_own _, ?_, ?_, fun h => ?_⟩
  · rintro rfl
    exact exec_dbg_of_read rfl
  · rintro rfl
    exact exec_dbg_of_read rfl
  · rw [exec, execDbg, s.dbg.read_of_le h]

/-- Settles O31, by whether the configuration is legal. -/
theorem resetClearsTheBlock : Obligations.ResetClearsTheBlock :=
  fun _ => ⟨issuedAs_own _, fun hc => exec_reset hc, fun hc => if_neg hc⟩

/-- A delta as the difference of two timestamps of W_T bits, wrapped once (43_control.md R170). -/
theorem timeDelta_toNat {c : Config} (hc : c.wT ≤ 32) {u p : Word} (hp : Fits c.wT p) :
    (timeDelta c u p).toNat = (u.toNat + 2 ^ c.wT - p.toNat) % 2 ^ c.wT := by
  have hdvd : 2 ^ c.wT ∣ 2 ^ 32 := Nat.pow_dvd_pow 2 hc
  have hfit : (u - p).toNat % 2 ^ c.wT < 2 ^ 32 :=
    Nat.lt_of_lt_of_le (Nat.mod_lt _ (Nat.pow_pos Nat.two_pos)) (Nat.le_of_dvd (Nat.pow_pos Nat.two_pos) hdvd)
  rw [timeDelta, BitVec.toNat_ofNat, Nat.mod_eq_of_lt hfit, BitVec.toNat_sub, Nat.mod_mod_of_dvd _ hdvd]
  obtain ⟨k, hk⟩ := hdvd
  obtain ⟨j, rfl⟩ : ∃ j, k = j + 1 := Nat.exists_eq_succ_of_ne_zero (by rintro rfl; simp at hk)
  have hsplit : 2 ^ 32 - p.toNat + u.toNat = u.toNat + 2 ^ c.wT - p.toNat + 2 ^ c.wT * j := by
    rw [Nat.mul_succ] at hk
    omega
  rw [hsplit, Nat.add_mul_mod_self_left]

/-- Settles O28: the delta's ADD gives the buffer that EDGE keeps. -/
theorem edgePushesTheDelta : Obligations.EdgePushesTheDelta := by
  intro u s hc hu hp hw
  refine ⟨issuedAs_own _, fun hv => exec_edge_first hu hv, fun hv => ?_⟩
  obtain ⟨q, hq⟩ := Fifo.add_answers hw (timeDelta s.cfg u s.front.prev)
  exact ⟨_, _, timeDelta_toNat hc.wT_le hp, exec_add_of_fifo_add (timeDelta_fits hc.wT_le u _) hq,
    exec_edge_push hu hv hq⟩

/-! ### Steps -/

/-- A command that is accepted is performed on the state whose schedule has moved past it (30_encoding.md R78). -/
theorem step_of_command {s s' : State} {a : Agent} {w : CommandWord} (hc : s.cfg.Legal) (hv : s.Valid)
    (h : nextEvent s = some (.command a w, s')) :
    step s = match acceptCommand s.cfg a w with
      | .ok i => exec i s'
      | .error r => .refused r := by
  rw [step, State.rejection_none hc hv]
  simp only [fetch, h]
  cases acceptCommand s.cfg a w <;> rfl

/-- A `service` event performs the consumer's next operation and moves SERVICE on (43_control.md R174). -/
theorem step_of_service {s s' : State} (hc : s.cfg.Legal) (hv : s.Valid) (h : nextEvent s = some (.service, s')) :
    step s = andThen (exec (serviceInstr s.svc) s') (advanceService s.svc) := by
  rw [step, State.rejection_none hc hv]
  simp only [fetch, h]

theorem acceptCommand_ok {c : Config} {w : CommandWord} {i : Instr} (h : decode c w = .ok i) :
    acceptCommand c i.agent w = .ok i := by
  simp [acceptCommand, h]

/-- Settles O44: the decoded operation passes the agent's check. -/
theorem stepRunsTheDecodedOperation : Obligations.StepRunsTheDecodedOperation := by
  intro s w i rest hc hv hs hd
  rw [step_of_command hc hv (nextEvent_listed hs), acceptCommand_ok hd]
  rfl

/-- Settles O45: there is no next event. -/
theorem idleBlockHoldsItsState : Obligations.IdleBlockHoldsItsState := by
  intro s hc hv hs hl
  rw [step, State.rejection_none hc hv]
  simp only [fetch, (nextEvent_none_iff s).2 ⟨hs, hl⟩]

/-- Settles O46: the decoder's reason comes first, then the agent's check. -/
theorem refusedCommandsStopTheStep : Obligations.RefusedCommandsStopTheStep := by
  intro s a w rest hc hv hs
  have hstep := step_of_command hc hv (nextEvent_listed hs)
  have refuse {e : DecodeError} (h : decode s.cfg w = .error e) : step s = .refused (refusalOf e) := by
    rw [hstep, acceptCommand, h]
  refine ⟨refuse, refuse, refuse, fun i h ha => ?_⟩
  rw [hstep, acceptCommand, h]
  simp [ha]

/-- Settles O47: code 3 of the classifier breaks INV8. -/
theorem illegalStatesAreNotSteppedFrom : Obligations.IllegalStatesAreNotSteppedFrom := by
  intro s
  have bad (hc : s.cfg.Legal) (hv : ¬ s.Valid) : step s = .refused .badState := by
    rw [step, State.rejection, if_pos hc, if_neg hv]
  refine ⟨fun hc => ?_, fun hc hk => bad hc fun hv => ?_, bad⟩
  · rw [step, State.rejection, if_neg hc]
  · exact hv.cls_ne_code3 hk

/-- A step with an event to take depends on the state through its check, that event, the configuration and the place
in SERVICE. -/
theorem step_congr {s u v : State} {e : Event} (hs : nextEvent s = some (e, v)) (hu : nextEvent u = some (e, v))
    (hr : s.rejection = u.rejection) (hc : s.cfg = u.cfg) (hp : s.svc = u.svc) : step s = step u := by
  rw [step, step, hr]
  cases u.rejection with
  | some r => rfl
  | none =>
    simp only [fetch, hs, hu, hc, hp]
    cases e with
    | command a w =>
      cases ha : acceptCommand u.cfg a w with
      | ok i => simp only [ha]
      | error r => simp only [ha]
    | service => rfl

/-- Settles O54: the next event is the same whether the list holds it or what follows the list does. -/
theorem laterEventsFollowTheList : Obligations.LaterEventsFollowTheList := by
  intro s hs
  refine ⟨fun e es hl => ?_, fun n hl => ?_⟩
  · have hnext : nextEvent s = some (e, s.setSched es) := by simp only [nextEvent, hs, hl]
    exact step_congr hnext rfl rfl rfl rfl
  · have hnext : nextEvent s = some (Config.freeEvent n, s.setLater (.free (n + 1))) := by
      simp only [nextEvent, hs, hl]
    have hlist : nextEvent { s with sched := [Config.freeEvent n], later := .free (n + 1) } =
        some (Config.freeEvent n, s.setLater (.free (n + 1))) := by
      simp [nextEvent, State.setSched, State.setLater, hs]
    exact step_congr hnext hlist rfl rfl rfl

end Sys2Proof.Machine
end

section
/-! SUPPORT. The ring buffer as a queue: what ADD, GET and TESTCLR do to the buffered values, the latched flag and the
responses, one operation at a time and over runs (40_fifo.md R103 to R106). -/

namespace Sys2Proof.Machine

/-! ### Runs of operations -/

/-- A run goes on from the state its first operation answers. -/
theorem execAll_cons {i : Instr} {is : List Instr} {s t : State} (h : exec i s = .next t) :
    execAll (i :: is) s = execAll is t := by
  rw [execAll, h, andThen_of_next]

/-- A run in two parts goes on from the state the first part answers. -/
theorem execAll_append {is js : List Instr} {s t : State} (h : execAll is s = .next t) :
    execAll (is ++ js) s = execAll js t := by
  induction is generalizing s with
  | nil => cases h; rfl
  | cons i is ih =>
    obtain ⟨u, hu, ht⟩ := andThen_next h
    rw [List.cons_append, execAll_cons hu, ih ht]

/-! ### One operation -/

/-- A valid state of the legal configuration `c` that buffers the values `q`, with the flag and the responses given. -/
structure Holds (c : Config) (q : List Word) (full : Bool) (rs : List Response) (s : State) : Prop where
  legal : c.Legal
  cfg : s.cfg = c
  valid : s.Valid
  queue : s.queue = q
  full : s.fifo.full = full
  resps : s.resps = rs

section Queue

variable {c : Config} {q : List Word} {full : Bool} {rs : List Response} {s : State}

/-- Every valid state buffers its queue. -/
theorem holds_of_valid (hc : s.cfg.Legal) (hv : s.Valid) : Holds s.cfg s.queue s.fifo.full s.resps s :=
  ⟨hc, rfl, hv, rfl, rfl, rfl⟩

/-- A valid state whose cursors meet buffers nothing. -/
theorem holds_nil_of_valid (hc : s.cfg.Legal) (hv : s.Valid) (he : s.fifo.wr = s.fifo.rd) :
    Holds s.cfg [] s.fifo.full s.resps s :=
  ⟨hc, rfl, hv, hv.fifoOk.values_nil_iff.2 he.symm, rfl, rfl⟩

theorem Holds.fifoOk (h : Holds c q full rs s) : Fifo.Ok c s.fifo := h.cfg ▸ h.valid.fifoOk

/-- At most RB_CAP values are buffered (40_fifo.md R103). -/
theorem Holds.length_le (h : Holds c q full rs s) : q.length ≤ c.rbCap := by
  have hlt := h.fifoOk.count_lt
  rw [← h.queue, State.queue_eq, Fifo.values_length, h.cfg, Config.rbCap]
  omega

/-- The write cursor is about to meet the read cursor exactly when RB_CAP values are buffered (40_fifo.md R100). -/
theorem Holds.collides_iff (h : Holds c q full rs s) :
    nextSlot c.rbSlots s.fifo.wr = s.fifo.rd ↔ q.length = c.rbCap := by
  rw [← Fifo.collides_iff, Fifo.collides_iff_count h.fifoOk.wr_lt h.fifoOk.rd_lt, ← h.queue, State.queue_eq,
    Fifo.values_length, h.cfg, Config.rbCap]

/-- ADD appends its value below RB_CAP, and at RB_CAP empties the buffer and latches the flag (40_fifo.md R100). -/
theorem Holds.add_cases (h : Holds c q full rs s) {d : Word} (hd : Fits c.wT d) :
    ∃ t, exec (.add d) s = .next t ∧
      ((q.length < c.rbCap ∧ Holds c (q ++ [d]) full rs t) ∨
       (q.length = c.rbCap ∧ Holds c [] true rs t ∧ t.fifo.wr = 0 ∧ t.fifo.rd = 0)) := by
  obtain ⟨p, hp⟩ := Fifo.add_answers h.fifoOk.wr_lt d
  have hexec : exec (.add d) s = .next (s.setFifo p) := exec_add_of_fifo_add (h.cfg ▸ hd) (h.cfg ▸ hp)
  have hvalid := exec_valid hexec (h.cfg ▸ h.legal) h.valid
  have hqueue : (s.setFifo p).queue = p.values c.rbSlots := by rw [State.queue_eq, State.setFifo_cfg, h.cfg]; rfl
  have hq : s.fifo.values c.rbSlots = q := by rw [← h.queue, State.queue_eq, h.cfg]
  refine ⟨_, hexec, ?_⟩
  obtain ⟨-, ⟨hn, hvals, hf⟩ | ⟨hc, hvals, hf, hwr, hrd⟩⟩ := h.fifoOk.add hd hp
  · refine .inl ⟨Nat.lt_of_le_of_ne h.length_le (mt h.collides_iff.2 hn), ?_⟩
    exact ⟨h.legal, h.cfg, hvalid, by rw [hqueue, hvals, hq], hf.trans h.full, h.resps⟩
  · exact .inr ⟨h.collides_iff.1 hc, ⟨h.legal, h.cfg, hvalid, hqueue.trans hvals, hf, h.resps⟩, hwr, hrd⟩

theorem Holds.add (h : Holds c q full rs s) {d : Word} (hd : Fits c.wT d) (hlt : q.length < c.rbCap) :
    ∃ t, exec (.add d) s = .next t ∧ Holds c (q ++ [d]) full rs t := by
  obtain ⟨t, ht, ⟨-, h'⟩ | ⟨he, -⟩⟩ := h.add_cases hd
  · exact ⟨t, ht, h'⟩
  · omega

theorem Holds.add_overflow (h : Holds c q full rs s) {d : Word} (hd : Fits c.wT d) (he : q.length = c.rbCap) :
    ∃ t, exec (.add d) s = .next t ∧ Holds c [] true rs t ∧ t.fifo.wr = 0 ∧ t.fifo.rd = 0 := by
  obtain ⟨t, ht, ⟨hlt, -⟩ | ⟨-, h'⟩⟩ := h.add_cases hd
  · omega
  · exact ⟨t, ht, h'⟩

/-- GET takes the oldest value of an unlatched buffer, and otherwise answers empty and changes nothing
(40_fifo.md R101). -/
theorem Holds.get_cases (h : Holds c q full rs s) :
    (∃ d q' t, q = d :: q' ∧ full = false ∧ exec .get s = .next t ∧
      Holds c q' false (rs ++ [.get (some d)]) t) ∨
    ((q = [] ∨ full = true) ∧ exec .get s = .next (s.respond (.get none)) ∧
      Holds c q full (rs ++ [.get none]) (s.respond (.get none))) := by
  obtain ⟨p, v, hget, -, hcases⟩ := h.fifoOk.get
  have hexec := exec_get_of_fifo_get (s := s) (h.cfg ▸ hget)
  have hvalid := exec_valid hexec (h.cfg ▸ h.legal) h.valid
  have hq : s.fifo.values c.rbSlots = q := by rw [← h.queue, State.queue_eq, h.cfg]
  obtain ⟨d, rfl, -, hf, hvals, hf'⟩ | ⟨rfl, rfl, he⟩ := hcases
  · refine .inl ⟨d, _, _, hq.symm.trans hvals, h.full.symm.trans hf, hexec, h.legal, h.cfg, hvalid, ?_, hf', ?_⟩
    · rw [State.queue_eq, State.respond_cfg, State.setFifo_cfg, h.cfg]; rfl
    · rw [State.respond_resps, State.setFifo_resps, h.resps]
  · refine .inr ⟨by rwa [hq, h.full] at he, hexec, h.legal, h.cfg, hvalid, h.queue, h.full, ?_⟩
    rw [State.respond_resps, h.resps]

theorem Holds.get {d : Word} (h : Holds c (d :: q) false rs s) :
    ∃ t, exec .get s = .next t ∧ Holds c q false (rs ++ [.get (some d)]) t := by
  obtain ⟨d', q', t, hq, -, ht, h'⟩ | ⟨he, -⟩ := h.get_cases
  · cases hq; exact ⟨t, ht, h'⟩
  · simp at he

theorem Holds.get_empty (h : Holds c q full rs s) (he : q = [] ∨ full = true) :
    exec .get s = .next (s.respond (.get none)) ∧
      Holds c q full (rs ++ [.get none]) (s.respond (.get none)) := by
  obtain ⟨d, q', t, rfl, rfl, -⟩ | ⟨-, h'⟩ := h.get_cases
  · simp at he
  · exact h'

/-- TESTCLR returns the flag, clears it and keeps the values (40_fifo.md R102). -/
theorem Holds.testclr (h : Holds c q full rs s) :
    ∃ t, exec .testclr s = .next t ∧ Holds c q false (rs ++ [.testclr full]) t := by
  have hexec := exec_testclr s
  refine ⟨_, hexec, h.legal, h.cfg, exec_valid hexec (h.cfg ▸ h.legal) h.valid, h.queue, rfl, ?_⟩
  rw [State.respond_resps, State.setFifo_resps, h.resps, h.full]

/-! ### Runs of one operation -/

theorem Holds.adds (h : Holds c q full rs s) {ds : List Word} (hd : ∀ d ∈ ds, Fits c.wT d)
    (hle : q.length + ds.length ≤ c.rbCap) :
    ∃ t, execAll (ds.map .add) s = .next t ∧ Holds c (q ++ ds) full rs t := by
  induction ds generalizing q s with
  | nil => exact ⟨s, rfl, by rwa [List.append_nil]⟩
  | cons d ds ih =>
    rw [List.length_cons] at hle
    obtain ⟨u, hu, hholds⟩ := h.add (hd d (List.mem_cons_self ..)) (by omega)
    obtain ⟨t, ht, hholds⟩ := ih hholds (fun x hx => hd x (List.mem_cons_of_mem _ hx)) (by simp; omega)
    exact ⟨t, by rw [List.map_cons, execAll_cons hu, ht], by simpa using hholds⟩

theorem Holds.gets {ds : List Word} (h : Holds c ds false rs s) :
    ∃ t, execAll (List.replicate ds.length .get) s = .next t ∧
      Holds c [] false (rs ++ ds.map (fun d => .get (some d))) t := by
  induction ds generalizing rs s with
  | nil => exact ⟨s, rfl, by simpa using h⟩
  | cons d ds ih =>
    obtain ⟨u, hu, hholds⟩ := h.get
    obtain ⟨t, ht, hholds⟩ := ih hholds
    exact ⟨t, by rw [List.length_cons, List.replicate_succ, execAll_cons hu, ht], by simpa using hholds⟩

theorem Holds.testclrs (h : Holds c q false rs s) (n : Nat) :
    ∃ t, execAll (List.replicate n .testclr) s = .next t ∧
      Holds c q false (rs ++ List.replicate n (.testclr false)) t := by
  induction n generalizing rs s with
  | zero => exact ⟨s, rfl, by simpa using h⟩
  | succ n ih =>
    obtain ⟨u, hu, hholds⟩ := h.testclr
    obtain ⟨t, ht, hholds⟩ := ih hholds
    exact ⟨t, by rw [List.replicate_succ, execAll_cons hu, ht], by simpa [List.replicate_succ] using hholds⟩

/-- RB_CAP + 1 ADDs from an empty buffer overflow it at the last (40_fifo.md R105). -/
theorem Holds.adds_overflow (h : Holds c [] full rs s) {ds : List Word} (hd : ∀ d ∈ ds, Fits c.wT d)
    (he : ds.length = c.rbCap + 1) :
    ∃ t, execAll (ds.map .add) s = .next t ∧ Holds c [] true rs t ∧ t.fifo.wr = 0 ∧ t.fifo.rd = 0 := by
  obtain ⟨init, d, rfl⟩ := List.eq_nil_or_concat ds |>.resolve_left (by rintro rfl; simp at he)
  have hinit : init.length = c.rbCap := by simpa using he
  obtain ⟨u, hu, hholds⟩ := h.adds (ds := init) (fun x hx => hd x (by simp [hx])) (by simp [hinit])
  obtain ⟨t, ht, hholds⟩ := hholds.add_overflow (hd d (by simp)) (by simpa using hinit)
  exact ⟨t, by rw [List.map_concat, List.concat_eq_append, execAll_append hu, execAll_cons ht]; rfl, hholds⟩

/-! ### ADDs and GETs interleaved -/

theorem gotten_append (rs rs' : List Response) : gotten (rs ++ rs') = gotten rs ++ gotten rs' :=
  List.filterMap_append ..

/-- GETs beyond the buffered values return them in order, and the last is empty. -/
theorem Holds.drain {n : Nat} (h : Holds c q false rs s) (hlt : q.length < n) :
    ∃ t, execAll (List.replicate n .get) s = .next t ∧ gotten t.resps = gotten rs ++ q ∧
      t.resps.getLast? = some (.get none) := by
  induction n generalizing q rs s with
  | zero => omega
  | succ n ih =>
    cases q with
    | cons d q =>
      obtain ⟨u, hu, hholds⟩ := h.get
      obtain ⟨t, ht, hgot, hlast⟩ := ih hholds (by simpa using hlt)
      refine ⟨t, by rw [List.replicate_succ, execAll_cons hu, ht], ?_, hlast⟩
      rw [hgot, gotten_append]
      simp [gotten]
    | nil =>
      obtain ⟨hu, hholds⟩ := h.get_empty (.inl rfl)
      have hgot : gotten (rs ++ [.get none]) = gotten rs := by simp [gotten]
      cases n with
      | zero => exact ⟨_, execAll_cons hu, by rw [hholds.resps, hgot, List.append_nil], by simp⟩
      | succ n =>
        obtain ⟨t, ht, hgot', hlast⟩ := ih hholds (Nat.succ_pos n)
        exact ⟨t, by rw [List.replicate_succ, execAll_cons hu, ht], by rw [hgot', hgot], hlast⟩

/-- ADDs and GETs in any order, never more than RB_CAP values at a time: what was got and what is still buffered are
what was buffered and what was added, in order (40_fifo.md R104). -/
theorem Holds.addsAndGets {ops : List Instr} (h : Holds c q false rs s)
    (hops : ∀ i ∈ ops, i = .get ∨ ∃ d, Fits c.wT d ∧ i = .add d) (hle : q.length + (added ops).length ≤ c.rbCap) :
    ∃ t q' rs', execAll ops s = .next t ∧ Holds c q' false rs' t ∧
      gotten rs' ++ q' = gotten rs ++ q ++ added ops ∧ q'.length ≤ q.length + (added ops).length := by
  induction ops generalizing q rs s with
  | nil => exact ⟨s, q, rs, rfl, h, by simp [added], by simp⟩
  | cons i ops ih =>
    have hops' := fun j hj => hops j (List.mem_cons_of_mem i hj)
    obtain rfl | ⟨d, hd, rfl⟩ := hops i (List.mem_cons_self ..)
    · have hadd : added (.get :: ops) = added ops := rfl
      rw [hadd] at hle ⊢
      obtain ⟨d, q, u, rfl, -, hu, hholds⟩ | ⟨-, hu, hholds⟩ := h.get_cases
      · obtain ⟨t, q', rs', ht, hholds', heq, hlen⟩ := ih hholds hops' (by simp at hle; omega)
        refine ⟨t, q', rs', by rw [execAll_cons hu, ht], hholds', ?_, by simp; omega⟩
        rw [heq, gotten_append]
        simp [gotten]
      · obtain ⟨t, q', rs', ht, hholds', heq, hlen⟩ := ih hholds hops' hle
        refine ⟨t, q', rs', by rw [execAll_cons hu, ht], hholds', ?_, hlen⟩
        rw [heq, gotten_append]
        simp [gotten]
    · have hadd : added (.add d :: ops) = d :: added ops := rfl
      rw [hadd, List.length_cons] at hle ⊢
      obtain ⟨u, hu, hholds⟩ := h.add hd (by omega)
      obtain ⟨t, q', rs', ht, hholds', heq, hlen⟩ := ih hholds hops' (by simp; omega)
      refine ⟨t, q', rs', by rw [execAll_cons hu, ht], hholds', by simpa using heq, ?_⟩
      rw [List.length_append, List.length_singleton] at hlen
      omega

end Queue

/-- Settles O8, from what each operation does to a buffer that holds its queue. -/
theorem ringBufferIsALossyQueue : Obligations.RingBufferIsALossyQueue := by
  intro s hc hv
  have h := holds_of_valid hc hv
  refine ⟨h.length_le, fun d hd => ?_, fun d ds hf hq => ?_, fun he => ?_, ?_⟩
  · obtain ⟨t, ht, ⟨hlt, h'⟩ | ⟨heq, h', -⟩⟩ := h.add_cases hd
    · exact ⟨t, ht, fun _ => ⟨h'.queue, h'.full⟩, fun he => absurd he (Nat.ne_of_lt hlt)⟩
    · exact ⟨t, ht, fun hlt => absurd heq (Nat.ne_of_lt hlt), fun _ => ⟨h'.queue, h'.full⟩⟩
  · rw [hf, hq] at h
    obtain ⟨t, ht, h'⟩ := h.get
    exact ⟨t, ht, h'.queue, h'.resps, h'.full⟩
  · obtain ⟨ht, h'⟩ := h.get_empty he
    exact ⟨_, ht, h'.queue, h'.resps, h'.full⟩
  · obtain ⟨t, ht, h'⟩ := h.testclr
    exact ⟨t, ht, h'.queue⟩

/-- Settles O9: below RB_SLOTS the ADDs append, and the RB_SLOTS-th overflows. -/
theorem bufferHoldsOneLessThanItsSlots : Obligations.BufferHoldsOneLessThanItsSlots := by
  intro s ds hc hv hf he hd
  have h := holds_nil_of_valid hc hv he
  have hslots : 2 ≤ s.cfg.rbSlots := hc.two_le_rbSlots
  refine ⟨fun hle => ?_, fun heq => ?_⟩
  · obtain ⟨t, ht, h'⟩ := h.adds hd (by simpa [Config.rbCap] using hle)
    refine ⟨t, ht, h'.full.trans hf, h'.queue, ?_⟩
    rw [State.queue_eq, Fifo.values_length, h'.cfg, Fifo.count]
  · obtain ⟨t, ht, h', hwr, hrd⟩ := h.adds_overflow hd (by rw [heq, Config.rbCap]; omega)
    exact ⟨t, ht, h'.full, hwr, hrd, h'.queue⟩

/-- Settles O10: the interleaved run leaves some of the added values buffered, and the last GETs drain them. -/
theorem addedValuesReturnInOrder : Obligations.AddedValuesReturnInOrder := by
  intro s ops hc hv hf he hops hle
  have h := holds_nil_of_valid hc hv he
  rw [hf] at h
  obtain ⟨u, q, rs, hu, hu', heq, hlen⟩ := h.addsAndGets hops (by simpa using hle)
  obtain ⟨t, ht, hgot, hlast⟩ := hu'.drain (n := (added ops).length + 1) (by simp at hlen; omega)
  exact ⟨t, by rw [execAll_append hu, ht], by rw [hgot, heq, List.append_nil], hlast⟩

/-- Settles O11: the overflow latches the flag, which holds GET back until TESTCLR, and nothing is buffered then. -/
theorem overflowIsReportedOnce : Obligations.OverflowIsReportedOnce := by
  intro s ds n hc hv hf he hd hlen
  obtain ⟨s1, h1, hs1, -⟩ := (holds_nil_of_valid hc hv he).adds_overflow hd hlen
  obtain ⟨h2, hs2⟩ := hs1.get_empty (.inl rfl)
  obtain ⟨s3, h3, hs3⟩ := hs2.testclr
  obtain ⟨h4, hs4⟩ := hs3.get_empty (.inl rfl)
  obtain ⟨t, ht, hs5⟩ := hs4.testclrs n
  refine ⟨t, ?_, by rw [hs5.resps]; simp⟩
  rw [List.append_assoc, execAll_append h1]
  exact (execAll_cons h2).trans ((execAll_cons h3).trans ((execAll_cons h4).trans ht))

/-- Settles O12: while the flag is latched ADD appends and GET answers empty; TESTCLR lets the values out. -/
theorem readsAreHeldWhileFull : Obligations.ReadsAreHeldWhileFull := by
  intro s ds hc hv hf he hd hle
  have h := holds_nil_of_valid hc hv he
  rw [hf] at h
  obtain ⟨s1, h1, hs1⟩ := h.adds hd (by simpa using hle)
  obtain ⟨h2, hs2⟩ := hs1.get_empty (.inr rfl)
  obtain ⟨s3, h3, hs3⟩ := hs2.testclr
  rw [List.nil_append] at hs3
  obtain ⟨t, ht, hs4⟩ := hs3.gets
  refine ⟨t, ?_, by rw [hs4.resps]; simp⟩
  rw [List.append_assoc, execAll_append h1]
  exact (execAll_cons h2).trans ((execAll_cons h3).trans ht)

end Sys2Proof.Machine
end

section
/-! SUPPORT. Runs of bits through the framer: data bits into bytes, bytes into a packet, ones into the preamble counter
(20_memory.md R53, R54, 42_framer.md R143, R147 to R149). -/

namespace Sys2Proof.Machine

/-! ### Bits into a byte -/

/-- Bits shifted into a byte one after another (42_framer.md R140). -/
def shiftBits (bs : List Bool) (x : Byte) : Byte := bs.foldl (fun x b => shiftIn b x) x

theorem shiftBits_nil : shiftBits [] = id := rfl

theorem shiftBits_cons (b : Bool) (bs : List Bool) : shiftBits (b :: bs) = shiftBits bs ∘ shiftIn b := rfl

theorem shiftBits_concat (bs : List Bool) (b : Bool) : shiftBits (bs ++ [b]) = shiftIn b ∘ shiftBits bs := by
  funext x
  simp [shiftBits]

/-- Eight bits shifted in are the byte's bits in the order received, whatever the byte held (20_memory.md R53). -/
theorem byteBits_shiftBits (b7 b6 b5 b4 b3 b2 b1 b0 : Bool) (x : Byte) :
    byteBits (shiftBits [b7, b6, b5, b4, b3, b2, b1, b0] x) = [b7, b6, b5, b4, b3, b2, b1, b0] := by
  simp [shiftBits, byteBits, shiftIn]

/-- A byte is its bits. -/
theorem byteBits_injective {x y : Byte} (h : byteBits x = byteBits y) : x = y := by
  simp only [byteBits, List.cons.injEq, and_true] at h
  obtain ⟨h7, h6, h5, h4, h3, h2, h1, h0⟩ := h
  refine BitVec.eq_of_getLsbD_eq fun i hi => ?_
  interval_cases i <;> assumption

/-- A byte's bits shifted in, bit 7 first, give the byte. -/
theorem shiftBits_byteBits (x y : Byte) : shiftBits (byteBits y) x = y :=
  byteBits_injective (byteBits_shiftBits ..)

theorem byteBits_length (x : Byte) : (byteBits x).length = 8 := rfl

/-! ### What a run of bits does to the framer -/

/-- The bits `bs` take the framer from `f` to `f'`, emit the packets `ps` and change nothing else, whatever the state
around the framer is. -/
def Feeds (c : Config) (bs : List Bool) (f f' : Framer) (ps : List Pkt) : Prop :=
  ∀ s : State, s.cfg = c → s.framer = f →
    execAll (bs.map bitInstr) s = .next { s with framer := f', out := s.out ++ ps }

section Runs

variable {c : Config} {f g h : Framer}

theorem feeds_nil : Feeds c [] f f [] := by
  rintro s rfl rfl
  simp [execAll]

theorem feeds_bit {b : Bool} {p : Option Pkt} (hb : f.frmBit c b = some (g, p)) : Feeds c [b] f g p.toList := by
  rintro s rfl rfl
  exact execAll_cons (exec_bitInstr_of_frmBit hb)

theorem Feeds.append {as bs : List Bool} {ps qs : List Pkt} (ha : Feeds c as f g ps) (hb : Feeds c bs g h qs) :
    Feeds c (as ++ bs) f h (ps ++ qs) := by
  intro s hc hf
  rw [List.map_append, execAll_append (ha s hc hf), ← List.append_assoc]
  exact hb { s with framer := g, out := s.out ++ ps } hc rfl

theorem Feeds.cons {b : Bool} {bs : List Bool} {qs : List Pkt} (hb : f.frmBit c b = some (g, none))
    (hbs : Feeds c bs g h qs) : Feeds c (b :: bs) f h qs :=
  (feeds_bit hb).append hbs

/-- A run that emits nothing changes the framer alone. -/
theorem Feeds.run {bs : List Bool} {s : State} (hf : Feeds s.cfg bs s.framer g []) :
    execAll (bs.map bitInstr) s = .next { s with framer := g } := by
  rw [hf s rfl rfl]
  simp

/-! ### Data bits -/

/-- The framer with the bits `bs` shifted into its current byte and counted. -/
def Framer.filled (bs : List Bool) (f : Framer) : Framer :=
  { f with pkt := f.pkt.modify f.byteIndex (shiftBits bs), bitCount := f.bitCount + BitVec.ofNat 8 bs.length }

theorem Framer.filled_nil (f : Framer) : f.filled [] = f := by
  simp [Framer.filled, shiftBits_nil, List.modify_id]

theorem Framer.filled_cons {b : Bool} {bs : List Bool} (hi : (f.addBit b).byteIndex = f.byteIndex) :
    (f.addBit b).filled bs = f.filled (b :: bs) := by
  rw [Framer.filled, hi]
  simp only [Framer.filled, Framer.addBit_pkt, List.modify_modify_eq, shiftBits_cons, Framer.addBit_bitCount,
    List.length_cons, BitVec.add_assoc, Nat.add_comm bs.length 1, BitVec.ofNat_add]
  rfl

theorem Framer.filled_concat (bs : List Bool) (b : Bool) (hi : (f.filled bs).byteIndex = f.byteIndex) :
    (f.filled bs).addBit b = f.filled (bs ++ [b]) := by
  rw [Framer.addBit, hi]
  simp [Framer.filled, List.modify_modify_eq, shiftBits_concat, BitVec.ofNat_add, BitVec.add_assoc]

/-- Fewer data bits than the current byte has room for are shifted into it (42_framer.md R140). -/
theorem feeds_dataBits (hc : c.Legal) {bs : List Bool} (hd : f.frm = .data) (ha : f.awaitStop = false)
    (hroom : f.bitCount.toNat < 8 * c.pktBytes) (hlen : f.bitCount.toNat % 8 + bs.length < 8) :
    Feeds c bs f (f.filled bs) [] := by
  induction bs generalizing f with
  | nil => rw [Framer.filled_nil]; exact feeds_nil
  | cons b bs ih =>
    rw [List.length_cons] at hlen
    have hbytes := hc.pktBytes_le
    have hcount : (f.bitCount + 1).toNat = f.bitCount.toNat + 1 := bitCount_succ (by omega)
    have hbyte : (f.addBit b).byteIndex = f.byteIndex := by
      simp only [Framer.byteIndex, Framer.addBit_bitCount, hcount]
      omega
    have hdata : f.dataBit b = f.addBit b := by
      rw [Framer.dataBit_eq, ha, hcount, decide_eq_false (by omega), Bool.or_self, ← ha]
      rfl
    refine Feeds.cons (hdata ▸ Framer.frmBit_data hd ha hroom b) ?_
    rw [← Framer.filled_cons hbyte]
    refine ih hd ha ?_ ?_
    · rw [Framer.addBit_bitCount, hcount]; omega
    · rw [Framer.addBit_bitCount, hcount]; omega

/-- Eight data bits from a byte boundary fill a byte, and the 9th bit is then awaited (42_framer.md R143). -/
theorem feeds_byte (hc : c.Legal) {bs : List Bool} (hd : f.frm = .data) (ha : f.awaitStop = false)
    (hroom : f.bitCount.toNat < 8 * c.pktBytes) (h0 : f.bitCount.toNat % 8 = 0) (hlen : bs.length = 8) :
    Feeds c bs f { f.filled bs with awaitStop := true } [] := by
  obtain ⟨init, b, rfl⟩ := List.eq_nil_or_concat bs |>.resolve_left (by rintro rfl; simp at hlen)
  rw [List.concat_eq_append] at hlen ⊢
  have hinit : init.length = 7 := by simpa using hlen
  have hbytes := hc.pktBytes_le
  have hcount : (f.filled init).bitCount.toNat = f.bitCount.toNat + 7 := by
    simp only [Framer.filled, hinit, BitVec.toNat_add, BitVec.toNat_ofNat]
    omega
  have hbyte : (f.filled init).byteIndex = f.byteIndex := by
    simp only [Framer.byteIndex, hcount]
    omega
  have hlast : (f.filled init).dataBit b = { f.filled (init ++ [b]) with awaitStop := true } := by
    rw [Framer.dataBit_eq, Framer.filled_concat _ _ hbyte, bitCount_succ (by omega), hcount,
      decide_eq_true (by omega), Bool.or_true]
  have hroom' : (f.filled init).bitCount.toNat < 8 * c.pktBytes := by omega
  exact (feeds_dataBits hc hd ha hroom (by omega)).append
    (feeds_bit (hlast ▸ Framer.frmBit_data (f := f.filled init) hd ha hroom' b))

/-! ### Bytes into a packet -/

/-- The framer in DATA with the bytes `xs` received and continued (42_framer.md R143). -/
def Framer.assembled (c : Config) (xs : List Byte) : Framer where
  frm := .data
  awaitStop := false
  pcnt := 0
  pkt := xs ++ List.replicate (c.pktBytes - xs.length) 0
  bitCount := BitVec.ofNat 8 (8 * xs.length)

/-- The framer with the bytes `xs` received and the 9th bit after them awaited. -/
def Framer.awaiting (c : Config) (xs : List Byte) : Framer := { Framer.assembled c xs with awaitStop := true }

/-- The start bit leaves an empty packet (10_state.md R41 INV2). -/
theorem Framer.Ok.started (hf : Framer.Ok c f) (hp : f.frm = .preamble) :
    { f with frm := .data, pcnt := 0 } = Framer.assembled c [] := by
  obtain ⟨hb, ha, hz⟩ := hf.preamble_empty hp
  have hpkt : f.pkt = List.replicate c.pktBytes 0 := List.eq_replicate_iff.2 ⟨hf.bytes, hz⟩
  simp [Framer.assembled, hb, ha, hpkt]

theorem Framer.assembled_count (hc : c.Legal) {xs : List Byte} (hx : xs.length ≤ c.pktBytes) :
    (Framer.assembled c xs).bitCount.toNat = 8 * xs.length := by
  have hbytes := hc.pktBytes_le
  simp only [Framer.assembled, BitVec.toNat_ofNat]
  omega

/-- A byte's bits go into the packet after the bytes before it (20_memory.md R53). -/
theorem feeds_byteBits (hc : c.Legal) {xs : List Byte} (hx : xs.length < c.pktBytes) (x : Byte) :
    Feeds c (byteBits x) (Framer.assembled c xs) (Framer.awaiting c (xs ++ [x])) [] := by
  have hcount := Framer.assembled_count hc (Nat.le_of_lt hx)
  have hfill : { (Framer.assembled c xs).filled (byteBits x) with awaitStop := true } =
      Framer.awaiting c (xs ++ [x]) := by
    have hbyte : (Framer.assembled c xs).byteIndex = xs.length := by rw [Framer.byteIndex, hcount]; omega
    have hbits : (Framer.assembled c xs).bitCount + 8 = (Framer.awaiting c (xs ++ [x])).bitCount := by
      simp [Framer.awaiting, Framer.assembled, Nat.mul_add, BitVec.ofNat_add]
    have hpkt : (Framer.assembled c xs).pkt.modify xs.length (shiftBits (byteBits x)) =
        (Framer.awaiting c (xs ++ [x])).pkt := by
      have hzeros : c.pktBytes - xs.length = c.pktBytes - (xs ++ [x]).length + 1 := by simp; omega
      simp only [Framer.awaiting, Framer.assembled, hzeros, List.replicate_succ]
      rw [List.modify_eq_take_cons_drop (by simp)]
      simp [shiftBits_byteBits]
    rw [Framer.filled, hbyte, hpkt, byteBits_length, show BitVec.ofNat 8 8 = 8 from rfl, hbits]
    rfl
  rw [← hfill]
  exact feeds_byte hc rfl rfl (by omega) (by omega) rfl

theorem Framer.awaiting_packet (hc : c.Legal) {xs : List Byte} (hx : xs.length ≤ c.pktBytes) :
    (Framer.awaiting c xs).packet = { bytes := xs, nbytes := xs.length } := by
  have hi : (Framer.awaiting c xs).byteIndex = xs.length := by
    rw [Framer.byteIndex, show (Framer.awaiting c xs).bitCount.toNat = _ from Framer.assembled_count hc hx]
    omega
  rw [Framer.packet, hi]
  simp [Framer.awaiting, Framer.assembled]

/-- The end bit emits the bytes received (42_framer.md R147). -/
theorem feeds_endBit (hc : c.Legal) {xs : List Byte} (hx : xs.length ≤ c.pktBytes) :
    Feeds c [true] (Framer.awaiting c xs) (Framer.initial c) [{ bytes := xs, nbytes := xs.length }] := by
  rw [← Framer.awaiting_packet hc hx]
  exact feeds_bit (Framer.frmBit_stop rfl rfl true)

/-- A continuation 0 with room for another byte goes on with the packet (42_framer.md R143). -/
theorem feeds_continuation (hc : c.Legal) {xs : List Byte} (hx : xs.length < c.pktBytes) :
    Feeds c [false] (Framer.awaiting c xs) (Framer.assembled c xs) [] := by
  have hne : (Framer.awaiting c xs).bitCount.toNat ≠ 8 * c.pktBytes := by
    rw [show (Framer.awaiting c xs).bitCount.toNat = _ from Framer.assembled_count hc (Nat.le_of_lt hx)]
    omega
  have hbit := Framer.frmBit_stop (c := c) (f := Framer.awaiting c xs) rfl rfl false
  rw [Framer.stopBit, if_neg nofun, if_neg hne] at hbit
  exact feeds_bit hbit

/-- A continuation 0 after PKT_BYTES bytes drops the packet (42_framer.md R148). -/
theorem feeds_capacity (hc : c.Legal) {xs : List Byte} (hx : xs.length = c.pktBytes) :
    Feeds c [false] (Framer.awaiting c xs) (Framer.initial c) [] := by
  have hcount : (Framer.awaiting c xs).bitCount.toNat = 8 * xs.length :=
    Framer.assembled_count hc (Nat.le_of_eq hx)
  have hcap : capacityReached c (Framer.awaiting c xs) = true := by
    rw [capacityReached, hcount, hx]
    simp [Framer.awaiting, Framer.assembled]
  exact feeds_bit (Framer.frmBit_of_capacityReached hcap)

/-- Bytes each followed by a continuation 0 are assembled while another has room. -/
theorem feeds_continuedBits (hc : c.Legal) {xs ys : List Byte} (hlen : xs.length + ys.length < c.pktBytes) :
    Feeds c (continuedBits ys) (Framer.assembled c xs) (Framer.assembled c (xs ++ ys)) [] := by
  induction ys generalizing xs with
  | nil => rw [List.append_nil]; exact feeds_nil
  | cons y ys ih =>
    rw [List.length_cons] at hlen
    have hbyte := feeds_byteBits hc (xs := xs) (by omega) y
    have hcont := feeds_continuation hc (xs := xs ++ [y]) (by simp; omega)
    have hrest := ih (xs := xs ++ [y]) (by simp; omega)
    rw [List.append_assoc, List.singleton_append] at hrest
    exact (hbyte.append hcont).append hrest

theorem packetBits_concat (xs : List Byte) (x : Byte) :
    packetBits (xs ++ [x]) = continuedBits xs ++ (byteBits x ++ [true]) := by
  induction xs with
  | nil => rfl
  | cons y ys ih =>
    cases ys with
    | nil => rfl
    | cons z zs =>
      have hnext : packetBits ((y :: z :: zs) ++ [x]) = byteBits y ++ [false] ++ packetBits ((z :: zs) ++ [x]) := rfl
      rw [hnext, ih, ← List.append_assoc]
      rfl

theorem continuedBits_concat (xs : List Byte) (x : Byte) :
    continuedBits (xs ++ [x]) = continuedBits xs ++ (byteBits x ++ [false]) := by
  simp [continuedBits]

/-! ### The preamble -/

/-- Ones in PREAMBLE are counted up to PCNT_MAX (42_framer.md R149). -/
theorem feeds_ones (hc : c.Legal) (hp : f.frm = .preamble) (hle : f.pcnt.toNat ≤ c.pcntMax) (n : Nat) :
    Feeds c (List.replicate n true) f { f with pcnt := BitVec.ofNat 8 (min (f.pcnt.toNat + n) c.pcntMax) } [] := by
  have hmax := hc.pcntMax_le
  induction n generalizing f with
  | zero =>
    rw [Nat.add_zero, Nat.min_eq_left hle, BitVec.ofNat_toNat, BitVec.setWidth_eq]
    exact feeds_nil
  | succ n ih =>
    have hsucc := satSucc_toNat hmax f.pcnt
    have hstep : min ((satSucc c f.pcnt).toNat + n) c.pcntMax = min (f.pcnt.toNat + (n + 1)) c.pcntMax := by omega
    have hrest := ih (f := { f with pcnt := satSucc c f.pcnt }) hp (by rw [hsucc]; exact Nat.min_le_right _ _)
    simp only [hstep] at hrest
    exact Feeds.cons (Framer.frmBit_preamble hp true) hrest

end Runs

/-! ### The statements about runs of bits -/

/-- Settles O21: the byte that the eight bits fill is what they shift into it. -/
theorem dataBitsFillAByteMsbFirst : Obligations.DataBitsFillAByteMsbFirst := by
  intro s b7 b6 b5 b4 b3 b2 b1 b0 hc hv hd ha h0
  have hok := hv.framerOk
  have hroom := hok.room hd ha
  have hbytes := hc.pktBytes_le
  have hidx : s.framer.bitCount.toNat / 8 < s.framer.pkt.length := by rw [hok.bytes]; omega
  refine ⟨_, _, (feeds_byte hc hd ha hroom h0 rfl).run, List.modify_eq_set_get _ hidx, byteBits_shiftBits .., ?_, rfl,
    hd, rfl⟩
  simp only [Framer.filled, BitVec.toNat_add, List.length_cons, List.length_nil, BitVec.toNat_ofNat]
  omega

/-- The ONEs and the ZERO of a preamble present its bits. -/
theorem preamble_instrs (n : Nat) :
    List.replicate n .one ++ [.zero] = (List.replicate n true ++ [false]).map bitInstr := by
  simp [bitInstr]

/-- `n` ones from a cleared counter are counted up to PCNT_MAX (42_framer.md R149). -/
theorem feeds_ones_of_cleared {c : Config} (hc : c.Legal) {f : Framer} (hp : f.frm = .preamble) (h0 : f.pcnt = 0)
    (n : Nat) : Feeds c (List.replicate n true) f { f with pcnt := BitVec.ofNat 8 (min n c.pcntMax) } [] := by
  have h := feeds_ones hc hp (by simp [h0]) n
  rwa [h0, show (0 : Byte).toNat = 0 from rfl, Nat.zero_add] at h

theorem pcnt_toNat {c : Config} (hc : c.Legal) (n : Nat) :
    (BitVec.ofNat 8 (min n c.pcntMax)).toNat = min n c.pcntMax := by
  have hmax := hc.pcntMax_le
  rw [BitVec.toNat_ofNat]
  omega

/-- A sufficient preamble and the start bit open an empty packet (42_framer.md R143, R149). -/
theorem feeds_start {c : Config} (hc : c.Legal) {f : Framer} (hf : Framer.Ok c f) (hp : f.frm = .preamble)
    (h0 : f.pcnt = 0) {n : Nat} (hn : c.minPreamble ≤ n) :
    Feeds c (List.replicate n true ++ [false]) f (Framer.assembled c []) [] := by
  have hcount : c.minPreamble ≤ (BitVec.ofNat 8 (min n c.pcntMax)).toNat := by
    have hmin := hc.minPreamble_le
    rw [pcnt_toNat hc]
    omega
  have hbit := Framer.frmBit_preamble (c := c) (f := { f with pcnt := BitVec.ofNat 8 (min n c.pcntMax) }) hp false
  rw [Framer.preambleBit, if_neg nofun, if_pos hcount] at hbit
  rw [← hf.started hp]
  exact (feeds_ones_of_cleared hc hp h0 n).append (feeds_bit hbit)

/-- Settles O22: the ones are counted up to PCNT_MAX, which is at least MIN_PREAMBLE. -/
theorem preambleNeedsTheMinimumOfOnes : Obligations.PreambleNeedsTheMinimumOfOnes := by
  intro s n hc hv hp h0
  have hones := feeds_ones_of_cleared hc hp h0 n
  have hempty := (hv.framerOk.preamble_empty hp).1
  have hmin : s.cfg.minPreamble ≤ s.cfg.pcntMax := hc.minPreamble_le
  have hrun := hones.run
  rw [List.map_replicate] at hrun
  refine ⟨⟨_, hrun, pcnt_toNat hc n, hp⟩, ?_⟩
  · rw [preamble_instrs]
    have hbit := Framer.frmBit_preamble (c := s.cfg)
      (f := { s.framer with pcnt := BitVec.ofNat 8 (min n s.cfg.pcntMax) }) hp false
    rw [Framer.preambleBit, if_neg nofun, pcnt_toNat hc] at hbit
    by_cases hn : s.cfg.minPreamble ≤ n
    · rw [if_pos (by omega)] at hbit
      exact ⟨_, (hones.append (feeds_bit hbit)).run, rfl, iff_of_true rfl hn, hempty⟩
    · rw [if_neg (by omega)] at hbit
      exact ⟨_, (hones.append (feeds_bit hbit)).run, rfl, iff_of_false (by simp [hp]) hn, hempty⟩

/-- Bytes that fit the packet are assembled, all but the last one continued, and the 9th bit is awaited. -/
theorem feeds_bytes {c : Config} (hc : c.Legal) {xs : List Byte} {x : Byte} (hlen : (xs ++ [x]).length ≤ c.pktBytes) :
    Feeds c (continuedBits xs ++ byteBits x) (Framer.assembled c []) (Framer.awaiting c (xs ++ [x])) [] := by
  rw [List.length_append, List.length_singleton] at hlen
  exact (feeds_continuedBits hc (xs := []) (by simp; omega)).append (feeds_byteBits hc (xs := xs) (by omega) x)

/-- A preamble, a start bit and the bits of a framed packet deliver it (42_framer.md R147). -/
theorem feeds_packet {c : Config} (hc : c.Legal) {f : Framer} (hf : Framer.Ok c f) (hp : f.frm = .preamble)
    (h0 : f.pcnt = 0) {n : Nat} (hn : c.minPreamble ≤ n) {bytes : List Byte} (hpos : 1 ≤ bytes.length)
    (hle : bytes.length ≤ c.pktBytes) :
    Feeds c (List.replicate n true ++ [false] ++ packetBits bytes) f (Framer.initial c)
      [{ bytes := bytes, nbytes := bytes.length }] := by
  obtain ⟨xs, x, rfl⟩ := List.eq_nil_or_concat bytes |>.resolve_left (by rintro rfl; simp at hpos)
  rw [List.concat_eq_append] at hle ⊢
  rw [packetBits_concat, ← List.append_assoc (continuedBits xs)]
  exact (feeds_start hc hf hp h0 hn).append ((feeds_bytes hc hle).append (feeds_endBit hc hle))

/-- Settles O23, from the run of the packet's bits. -/
theorem framedPacketIsDelivered : Obligations.FramedPacketIsDelivered := by
  intro s n bytes hc hv hp h0 hn hpos hle
  rw [preamble_instrs, ← List.map_append]
  exact feeds_packet hc hv.framerOk hp h0 hn hpos hle s rfl rfl

/-- Settles O24: the last byte fills the packet, and the 0 after it drops it. -/
theorem packetBeyondCapacityIsDropped : Obligations.PacketBeyondCapacityIsDropped := by
  intro s n bytes hc hv hp h0 hn hlen
  have hpos : 1 ≤ s.cfg.pktBytes := hc.pktBytes_pos
  obtain ⟨xs, x, rfl⟩ := List.eq_nil_or_concat bytes |>.resolve_left (by rintro rfl; simp at hlen; omega)
  rw [List.concat_eq_append] at hlen ⊢
  rw [preamble_instrs, ← List.map_append, continuedBits_concat, ← List.append_assoc (continuedBits xs)]
  exact ((feeds_start hc hv.framerOk hp h0 hn).append
    ((feeds_bytes hc hlen.le).append (feeds_capacity hc hlen))).run

end Sys2Proof.Machine
end

section
/-! SUPPORT. Runs of STEPs against the bit events of their deltas (41_classifier.md R122, R123). -/

namespace Sys2Proof.Machine

theorem bitEvents_cons {c : Config} {k k' : Cls} {d : Word} {e : Option BitEvent}
    (h : pairHalf k (classify c d) = some (k', e)) (ds : List Word) :
    bitEvents c k (d :: ds) = ((bitEvents c k' ds).1, e.toList ++ (bitEvents c k' ds).2) := by
  rw [bitEvents, h]

/-- STEP from a valid state: it answers by a row of the table, in a valid state that has counted it. -/
theorem exec_step_row {d : Word} {s : State} (hc : s.cfg.Legal) (hv : s.Valid) (hd : Fits s.cfg.wT d) :
    ∃ t e, exec (.step d) s = .next t ∧ t.cfg = s.cfg ∧ t.Valid ∧
      pairHalf s.cls (classify s.cfg d) = some (t.cls, e) ∧
      t.dbg.dbg1 = s.dbg.dbg1 + 1 ∧ t.fifo = s.fifo ∧
      ((e = none ∧ t.framer = s.framer ∧ t.out = s.out) ∨
       ∃ ev, e = some ev ∧ ∀ u : State, u.cfg = s.cfg → u.framer = s.framer → u.out = s.out →
         exec ev.instr u = .next { u with framer := t.framer, out := t.out }) := by
  obtain ⟨t, ht⟩ := exec_step_answers hd hv
  have hframe := exec_step_frame ht
  obtain ⟨-, k, e, hrow, hcase⟩ := execStep_next ht
  refine ⟨t, e, ht, exec_cfg ht, exec_valid ht hc hv, ?_, by rw [hframe]; rfl, by rw [hframe]; rfl, ?_⟩
  · obtain ⟨-, rfl⟩ | ⟨ev, -, hev⟩ := hcase
    · exact hrow
    · rw [frameEvent_frame hev]; exact hrow
  · obtain ⟨rfl, rfl⟩ | ⟨ev, rfl, hev⟩ := hcase
    · exact .inl ⟨rfl, rfl, rfl⟩
    · refine .inr ⟨ev, rfl, fun u hc hf ho => ?_⟩
      rw [exec_bitEvent]
      exact frameEvent_congr hev hf hc ho

/-- A run of STEPs simulates the run of its bit events from any state with the same framer and output. -/
theorem execAll_steps {ds : List Word} {s u : State} (hc : s.cfg.Legal) (hv : s.Valid)
    (hd : ∀ d ∈ ds, Fits s.cfg.wT d) (hcfg : u.cfg = s.cfg) (hf : u.framer = s.framer) (ho : u.out = s.out) :
    ∃ t, execAll (ds.map .step) s = .next t ∧
      execAll ((bitEvents s.cfg s.cls ds).2.map BitEvent.instr) u = .next { u with framer := t.framer, out := t.out } ∧
      t.cls = (bitEvents s.cfg s.cls ds).1 ∧ t.dbg.dbg1 = s.dbg.dbg1 + BitVec.ofNat 32 ds.length ∧ t.fifo = s.fifo := by
  induction ds generalizing s u with
  | nil => exact ⟨s, rfl, by rw [← hf, ← ho]; rfl, rfl, by simp, rfl⟩
  | cons d ds ih =>
    obtain ⟨s', e, hs', hcfg', hv', hrow, hdbg, hfifo, hcase⟩ := exec_step_row hc hv (hd d (List.mem_cons_self ..))
    have hd' : ∀ x ∈ ds, Fits s'.cfg.wT x := fun x hx => hcfg' ▸ hd x (List.mem_cons_of_mem _ hx)
    have hcount : s.dbg.dbg1 + BitVec.ofNat 32 (d :: ds).length = s'.dbg.dbg1 + BitVec.ofNat 32 ds.length := by
      rw [hdbg, List.length_cons, Nat.add_comm, BitVec.ofNat_add, BitVec.add_assoc]; rfl
    rw [bitEvents_cons hrow, hcount, ← hfifo, List.map_cons, execAll_cons hs', ← hcfg']
    obtain ⟨rfl, hf', ho'⟩ | ⟨ev, rfl, hev⟩ := hcase
    · exact ih (hcfg' ▸ hc) hv' hd' (hcfg.trans hcfg'.symm) (hf.trans hf'.symm) (ho.trans ho'.symm)
    · obtain ⟨t, ht, hu, hcls, hrest⟩ := ih (u := { u with framer := s'.framer, out := s'.out }) (hcfg' ▸ hc) hv' hd'
        (hcfg.trans hcfg'.symm) rfl rfl
      refine ⟨t, ht, ?_, hcls, hrest⟩
      exact (execAll_cons (hev u hcfg hf ho)).trans hu

/-- Settles O16, from the simulation started in the same state. -/
theorem stepsActAsTheirBitEvents : Obligations.StepsActAsTheirBitEvents := by
  intro s ds hc hv hd
  obtain ⟨t, ht, hu, hcls, hdbg, hfifo⟩ := execAll_steps hc hv hd rfl rfl rfl
  exact ⟨t, _, ht, hu, rfl, rfl, hcls, hdbg, hfifo⟩

/-- Each row of the table performs a framer event or moves to a half-seen state, and never both (41_classifier.md
R123). -/
theorem pairHalf_event_or_half {k k' : Cls} {x : HalfClass} {e : Option BitEvent} (h : pairHalf k x = some (k', e)) :
    e.toList.length + (if k = .awaitFirstHalf ∧ k' ≠ .awaitFirstHalf then 1 else 0) = 1 := by
  cases k <;> cases x <;> cases h <;> rfl

/-- Settles O17, by induction on the deltas, each by its row. -/
theorem eventsAreStepsLessFirstHalves : Obligations.EventsAreStepsLessFirstHalves := by
  intro s ds hc hv hd
  refine ⟨?_, ?_⟩
  · obtain ⟨t, ht, -⟩ := execAll_steps hc hv hd rfl rfl rfl
    exact ⟨t, ht⟩
  · induction ds generalizing s with
    | nil => rfl
    | cons d ds ih =>
      obtain ⟨s', e, hs', hcfg', hv', hrow, -⟩ := exec_step_row hc hv (hd d (List.mem_cons_self ..))
      have hrest := ih s' (hcfg' ▸ hc) hv' fun x hx => hcfg' ▸ hd x (List.mem_cons_of_mem _ hx)
      have hone := pairHalf_event_or_half hrow
      rw [hcfg'] at hrest
      rw [bitEvents_cons hrow, firstHalfMoves, hs', List.length_append, List.length_cons]
      simp only
      omega

/-- The halves of bits pair to the bits' events and leave nothing buffered (41_classifier.md R122). -/
theorem bitEvents_of_halves {c : Config} {bs : List Bool} {ps : List (Word × Word)}
    (h : List.Forall₂ (HalvesOf c) bs ps) :
    bitEvents c .awaitFirstHalf (ps.flatMap fun p => [p.1, p.2]) = (.awaitFirstHalf, bs.map bitEvent) := by
  induction h with
  | nil => rfl
  | @cons b p bs ps hb _ ih =>
    have hpair : ∃ k, pairHalf .awaitFirstHalf (classify c p.1) = some (k, none) ∧
        pairHalf k (classify c p.2) = some (.awaitFirstHalf, some (bitEvent b)) := by
      cases b with
      | true =>
        obtain ⟨h1, h2⟩ : classify c p.1 = .short ∧ classify c p.2 = .short := hb
        rw [h1, h2]
        exact ⟨_, rfl, rfl⟩
      | false =>
        obtain ⟨h1, h2⟩ : classify c p.1 = .long ∧ classify c p.2 = .long := hb
        rw [h1, h2]
        exact ⟨_, rfl, rfl⟩
    obtain ⟨k, h1, h2⟩ := hpair
    rw [List.flatMap_cons, List.cons_append, bitEvents_cons h1, List.cons_append, bitEvents_cons h2, List.nil_append,
      ih]
    rfl

theorem bitEvent_instr (b : Bool) : (bitEvent b).instr = bitInstr b := by cases b <;> rfl

/-- Settles O25: the halves pair to the packet's bits, which deliver it. -/
theorem packetIsDecodedFromItsHalves : Obligations.PacketIsDecodedFromItsHalves := by
  intro s n bytes ps hc hv hk hp h0 hn hpos hle hps hfit
  have hevents := bitEvents_of_halves hps
  have hd : ∀ d ∈ ps.flatMap (fun p => [p.1, p.2]), Fits s.cfg.wT d := by
    intro d hd
    obtain ⟨p, hmem, hd⟩ := List.mem_flatMap.1 hd
    simp only [List.mem_cons, List.not_mem_nil, or_false] at hd
    obtain rfl | rfl := hd
    · exact (hfit p hmem).1
    · exact (hfit p hmem).2
  obtain ⟨t, ht, hu, hcls, -⟩ := execAll_steps hc hv hd rfl rfl rfl
  have hsteps : (ps.flatMap fun p => [p.1, p.2]).map Instr.step = stepsOf ps := by
    rw [List.map_flatMap]; rfl
  have hbits := feeds_packet hc hv.framerOk hp h0 hn hpos hle s rfl rfl
  rw [hk, hevents, List.map_map, show BitEvent.instr ∘ bitEvent = bitInstr from funext bitEvent_instr, hbits] at hu
  rw [hk, hevents] at hcls
  refine ⟨t, hsteps ▸ ht, ?_, ?_, hcls⟩
  · exact (congrArg State.out (Host.Outcome.next.inj hu)).symm
  · exact (congrArg State.framer (Host.Outcome.next.inj hu)).symm

end Sys2Proof.Machine
end

section
/-! SUPPORT. Steps of SERVICE and of the producer, and runs of them (43_control.md R174 to R177). -/

namespace Sys2Proof.Machine

/-! ### Runs of the machine -/

/-- A run that answers took its first step and went on from there. -/
theorem run_succ_next (M : Host.Core) {k : Nat} {s t : M.State} (h : Host.Core.run M (k + 1) s = .next t) :
    ∃ s', M.step s = .next s' ∧ Host.Core.run M k s' = .next t := by
  rw [Host.Core.run] at h
  cases hs : M.step s with
  | next s' => rw [hs] at h; exact ⟨s', rfl, h⟩
  | fault r => rw [hs] at h; cases h
  | refused r => rw [hs] at h; cases h

/-- A run in two parts goes on from the state the first part answers. -/
theorem run_add (M : Host.Core) {k : Nat} {s t : M.State} (h : Host.Core.run M k s = .next t) (j : Nat) :
    Host.Core.run M (k + j) s = Host.Core.run M j t := by
  induction k generalizing s with
  | zero => cases h; rw [Nat.zero_add]
  | succ k ih =>
    obtain ⟨s', hs', ht⟩ := run_succ_next M h
    rw [Nat.succ_add, run_succ M hs', ih ht]

/-! ### What classifying depends on -/

/-- Two states decode alike: they agree in what STEP reads and in what it leaves behind. -/
structure SameDecoding (s t : State) : Prop where
  cfg : t.cfg = s.cfg
  cls : t.cls = s.cls
  framer : t.framer = s.framer
  out : t.out = s.out
  dbg1 : t.dbg.dbg1 = s.dbg.dbg1

theorem SameDecoding.refl (s : State) : SameDecoding s s := ⟨rfl, rfl, rfl, rfl, rfl⟩

theorem SameDecoding.symm {s t : State} (h : SameDecoding s t) : SameDecoding t s :=
  ⟨h.cfg.symm, h.cls.symm, h.framer.symm, h.out.symm, h.dbg1.symm⟩

theorem SameDecoding.trans {s t u : State} (h : SameDecoding s t) (h' : SameDecoding t u) : SameDecoding s u :=
  ⟨h'.cfg.trans h.cfg, h'.cls.trans h.cls, h'.framer.trans h.framer, h'.out.trans h.out, h'.dbg1.trans h.dbg1⟩

/-- STEP does the same to states that decode alike. -/
theorem SameDecoding.exec_step {d : Word} {s u t : State} (h : SameDecoding s u) (ht : exec (.step d) s = .next t) :
    ∃ v, exec (.step d) u = .next v ∧ SameDecoding t v := by
  obtain ⟨hd, k, e, hrow, hcase⟩ := execStep_next ht
  rw [← h.cfg] at hd
  rw [← h.cfg, ← h.cls] at hrow
  have hdbg : u.dbg.dbg1 + 1 = s.dbg.dbg1 + 1 := by rw [h.dbg1]
  obtain ⟨rfl, rfl⟩ | ⟨ev, rfl, hev⟩ := hcase
  · exact ⟨_, exec_step_of_no_event hd hrow, h.cfg, rfl, h.framer, h.out, hdbg⟩
  · have hframe := frameEvent_frame hev
    have hu := frameEvent_congr (u := u.countStep.setCls k) hev h.framer h.cfg h.out
    have hexec := (exec_step_of_event hd hrow).trans ((exec_bitEvent ev _).trans hu)
    refine ⟨_, hexec, ?_, ?_, rfl, rfl, ?_⟩
    · rw [hframe]; exact h.cfg
    · rw [hframe]; rfl
    · rw [hframe]; exact hdbg

theorem SameDecoding.execAll_steps {ds : List Word} {s u t : State} (h : SameDecoding s u)
    (ht : execAll (ds.map .step) s = .next t) : ∃ v, execAll (ds.map .step) u = .next v ∧ SameDecoding t v := by
  induction ds generalizing s u with
  | nil => cases ht; exact ⟨u, rfl, h⟩
  | cons d ds ih =>
    obtain ⟨s', hs', ht⟩ := andThen_next ht
    obtain ⟨u', hu', h'⟩ := h.exec_step hs'
    obtain ⟨v, hv, h''⟩ := ih h' ht
    exact ⟨v, by rw [List.map_cons, execAll_cons hu', hv], h''⟩

/-! ### The consumer's operations in SERVICE -/

/-- One operation of SERVICE, between the states before and after it (43_control.md R174). -/
inductive ServiceMove (s t : State) : Prop
  /-- GET returned the oldest value -/
  | took (d : Word) (at_top : s.svc = .idle ∨ s.svc = .loop) (unlatched : s.fifo.full = false)
    (queue : s.queue = d :: t.queue) (full : t.fifo.full = false) (svc : t.svc = .step d)
    (resps : t.resps = s.resps ++ [.get (some d)]) (decoding : SameDecoding s t)
  /-- GET returned empty -/
  | empty (at_top : s.svc = .idle ∨ s.svc = .loop) (reason : s.queue = [] ∨ s.fifo.full = true)
    (fifo : t.fifo = s.fifo) (svc : t.svc = .testclr) (resps : t.resps = s.resps ++ [.get none])
    (decoding : SameDecoding s t)
  /-- STEP classified the value GET had returned -/
  | classified (d : Word) (at_step : s.svc = .step d) (fifo : t.fifo = s.fifo) (svc : t.svc = .loop)
    (resps : t.resps = s.resps) (counted : t.dbg.dbg1 = s.dbg.dbg1 + 1)
    (decoding : ∃ u, exec (.step d) s = .next u ∧ SameDecoding u t)
  /-- TESTCLR returned the flag and cleared it -/
  | tested (at_test : s.svc = .testclr) (queue : t.queue = s.queue) (full : t.fifo.full = false)
    (svc : t.svc = if s.fifo.full then .ovfreset else .idle) (resps : t.resps = s.resps ++ [.testclr s.fifo.full])
    (decoding : SameDecoding s t)
  /-- OVFRESET reset classifier and framer -/
  | recovered (at_reset : s.svc = .ovfreset) (cfg : t.cfg = s.cfg) (fifo : t.fifo = s.fifo) (svc : t.svc = .idle)
    (resps : t.resps = s.resps) (cls : t.cls = .awaitFirstHalf) (framer : t.framer = Framer.initial s.cfg)
    (out : t.out = s.out) (dbg : t.dbg = s.dbg)

theorem serviceNext_get {p : ServicePoint} (hp : p = .idle ∨ p = .loop) (rs : List Response) (v : Option Word) :
    serviceNext p (rs ++ [.get v]) = match v with
      | some d => .step d
      | none => .testclr := by
  obtain rfl | rfl := hp <;> cases v <;> simp [serviceNext]

theorem serviceInstr_top {p : ServicePoint} (hp : p = .idle ∨ p = .loop) : serviceInstr p = .get := by
  obtain rfl | rfl := hp <;> rfl

theorem serviceNext_testclr (rs : List Response) (f : Bool) :
    serviceNext .testclr (rs ++ [.testclr f]) = if f then .ovfreset else .idle := by
  cases f <;> simp [serviceNext]

/-- A `service` event in a safe state is performed: the consumer's operation answers, and SERVICE moves on. -/
theorem step_service {s s' : State} (hs : Safe s) (hn : nextEvent s = some (.service, s')) :
    ∃ u, exec (serviceInstr s.svc) s' = .next u ∧ step s = .next (u.setSvc (serviceNext s.svc u.resps)) := by
  obtain ⟨hc', hv', -, -⟩ := nextEvent_safe hn hs
  obtain ⟨hc, hv, -, hfits⟩ := hs
  have hcfg : s'.cfg = s.cfg := by obtain ⟨es, l, rfl⟩ := nextEvent_moves hn; rfl
  have hwf : (serviceInstr s.svc).wellFormed s'.cfg = true := by
    rw [hcfg]
    cases hsvc : s.svc with
    | step d => exact decide_eq_true (hfits d (by simp [hsvc, ServicePoint.held]))
    | _ => rfl
  obtain ⟨u, hu⟩ := exec_answers hc' hv' hwf
  exact ⟨u, hu, by rw [step_of_service hc hv hn, hu]; rfl⟩

/-- Every step of SERVICE is one of its moves; the front-end and the events still to come are as they were. -/
theorem step_service_move {s s' : State} (hs : Safe s) (hn : nextEvent s = some (.service, s')) :
    ∃ t, step s = .next t ∧ ServiceMove s t ∧ t.front = s.front ∧ t.sched = s'.sched ∧ t.later = s'.later := by
  obtain ⟨u, hu, hstep⟩ := step_service hs hn
  refine ⟨_, hstep, ?_⟩
  obtain ⟨es, l, rfl⟩ := nextEvent_moves hn
  have hfifo := hs.valid.fifoOk
  have top (hp : s.svc = .idle ∨ s.svc = .loop) :
      ServiceMove s (u.setSvc (serviceNext s.svc u.resps)) ∧
        u.front = s.front ∧ u.sched = es ∧ u.later = l := by
    rw [serviceInstr_top hp] at hu
    obtain ⟨q, v, hq, rfl⟩ := execGet_next hu
    refine ⟨?_, rfl, rfl, rfl⟩
    rw [State.respond_resps, serviceNext_get hp]
    obtain ⟨q', v', hq', -, hcase⟩ := hfifo.get
    rw [show s.fifo.get s.cfg.rbSlots = _ from hq] at hq'
    cases hq'
    obtain ⟨d, rfl, -, hf, hvals, hf'⟩ | ⟨rfl, hkept, he⟩ := hcase
    · exact .took d hp hf hvals hf' rfl rfl ⟨rfl, rfl, rfl, rfl, rfl⟩
    · exact .empty hp he hkept rfl rfl ⟨rfl, rfl, rfl, rfl, rfl⟩
  cases hsvc : s.svc with
  | idle => exact hsvc ▸ top (.inl hsvc)
  | loop => exact hsvc ▸ top (.inr hsvc)
  | step d =>
    rw [hsvc] at hu
    have hframe := exec_step_frame (d := d) hu
    obtain ⟨hfifo, hresps, hdbg, hfront, hsched, hlater⟩ : u.fifo = s.fifo ∧ u.resps = s.resps ∧
        u.dbg.dbg1 = s.dbg.dbg1 + 1 ∧ u.front = s.front ∧ u.sched = es ∧ u.later = l := by
      rw [hframe]
      exact ⟨rfl, rfl, rfl, rfl, rfl, rfl⟩
    have hmoved : SameDecoding ((s.setSched es).setLater l) s := ⟨rfl, rfl, rfl, rfl, rfl⟩
    obtain ⟨v, hv, hsame⟩ := hmoved.exec_step (d := d) hu
    refine ⟨.classified d hsvc hfifo rfl hresps hdbg ⟨v, hv, ?_⟩, hfront, hsched, hlater⟩
    exact hsame.symm.trans ⟨rfl, rfl, rfl, rfl, rfl⟩
  | testclr =>
    rw [hsvc] at hu
    cases hu
    refine ⟨.tested hsvc rfl rfl ?_ rfl ⟨rfl, rfl, rfl, rfl, rfl⟩, rfl, rfl, rfl⟩
    exact serviceNext_testclr s.resps s.fifo.full
  | ovfreset =>
    rw [hsvc] at hu
    cases hu
    exact ⟨.recovered hsvc rfl rfl rfl rfl rfl rfl rfl rfl, rfl, rfl, rfl⟩

/-! ### The move at each point of SERVICE -/

section Points

variable {s t : State}

theorem ServiceMove.cfg (h : ServiceMove s t) : t.cfg = s.cfg := by
  cases h with
  | took _ _ _ _ _ _ _ hdec => exact hdec.cfg
  | empty _ _ _ _ _ hdec => exact hdec.cfg
  | classified _ _ _ _ _ _ hdec =>
    obtain ⟨u, hu, hdec⟩ := hdec
    exact hdec.cfg.trans (exec_cfg hu)
  | tested _ _ _ _ _ hdec => exact hdec.cfg
  | recovered _ hcfg => exact hcfg

/-- At the top with a value to take, SERVICE takes it. -/
theorem ServiceMove.of_value (h : ServiceMove s t) (hp : s.svc = .idle ∨ s.svc = .loop) (hf : s.fifo.full = false)
    {d : Word} {q : List Word} (hq : s.queue = d :: q) :
    t.queue = q ∧ t.fifo.full = false ∧ t.svc = .step d ∧ t.resps = s.resps ++ [.get (some d)] ∧ SameDecoding s t := by
  cases h with
  | took e _ _ hq' hf' hsvc hresps hdec =>
    rw [hq] at hq'
    cases hq'
    exact ⟨rfl, hf', hsvc, hresps, hdec⟩
  | empty _ he =>
    rw [hq, hf] at he
    simp at he
  | classified d h' => simp [h'] at hp
  | tested h' => simp [h'] at hp
  | recovered h' => simp [h'] at hp

/-- At the top with no value to take, SERVICE goes on to TESTCLR. -/
theorem ServiceMove.of_no_value (h : ServiceMove s t) (hp : s.svc = .idle ∨ s.svc = .loop)
    (he : s.queue = [] ∨ s.fifo.full = true) :
    t.fifo = s.fifo ∧ t.svc = .testclr ∧ SameDecoding s t := by
  cases h with
  | took d _ hf hq =>
    rw [hq, hf] at he
    simp at he
  | empty _ _ hfifo hsvc _ hdec => exact ⟨hfifo, hsvc, hdec⟩
  | classified d h' => simp [h'] at hp
  | tested h' => simp [h'] at hp
  | recovered h' => simp [h'] at hp

/-- At STEP, SERVICE classifies the value it holds and goes back to the top. -/
theorem ServiceMove.of_step (h : ServiceMove s t) {d : Word} (hp : s.svc = .step d) :
    t.fifo = s.fifo ∧ t.svc = .loop ∧ t.resps = s.resps ∧ t.dbg.dbg1 = s.dbg.dbg1 + 1 := by
  cases h with
  | classified _ _ hfifo hsvc hresps hdbg => exact ⟨hfifo, hsvc, hresps, hdbg⟩
  | took _ h' => simp [hp] at h'
  | empty h' => simp [hp] at h'
  | tested h' => simp [hp] at h'
  | recovered h' => simp [hp] at h'

theorem ServiceMove.decoding_of_step (h : ServiceMove s t) {d : Word} (hp : s.svc = .step d) :
    ∃ u, exec (.step d) s = .next u ∧ SameDecoding u t := by
  cases h with
  | classified e h' _ _ _ _ hdec =>
    rw [hp] at h'
    cases h'
    exact hdec
  | took _ h' => simp [hp] at h'
  | empty h' => simp [hp] at h'
  | tested h' => simp [hp] at h'
  | recovered h' => simp [hp] at h'

/-- At TESTCLR, SERVICE clears the flag, and goes on to OVFRESET if it was set. -/
theorem ServiceMove.of_testclr (h : ServiceMove s t) (hp : s.svc = .testclr) :
    t.queue = s.queue ∧ t.fifo.full = false ∧ t.svc = (if s.fifo.full then .ovfreset else .idle) ∧
      SameDecoding s t := by
  cases h with
  | tested _ hq hf hsvc _ hdec => exact ⟨hq, hf, hsvc, hdec⟩
  | took _ h' => simp [hp] at h'
  | empty h' => simp [hp] at h'
  | classified _ h' => simp [hp] at h'
  | recovered h' => simp [hp] at h'

/-- At OVFRESET, SERVICE resets classifier and framer, and ends. -/
theorem ServiceMove.of_ovfreset (h : ServiceMove s t) (hp : s.svc = .ovfreset) :
    t.fifo = s.fifo ∧ t.svc = .idle ∧ t.cls = .awaitFirstHalf ∧ t.framer = Framer.initial s.cfg ∧ t.out = s.out ∧
      t.dbg = s.dbg := by
  cases h with
  | recovered _ _ hfifo hsvc _ hcls hframer hout hdbg => exact ⟨hfifo, hsvc, hcls, hframer, hout, hdbg⟩
  | took _ h' => simp [hp] at h'
  | empty h' => simp [hp] at h'
  | classified _ h' => simp [hp] at h'
  | tested h' => simp [hp] at h'

end Points

end Sys2Proof.Machine
end

section
/-! SUPPORT. The statements about SERVICE and the pipeline, from the moves of SERVICE and the producer's operations
(43_control.md R174 to R177). -/

namespace Sys2Proof.Machine

/-! ### SERVICE follows its loop -/

/-- Settles O48, point by point of the loop. -/
theorem serviceFollowsItsLoop : Obligations.ServiceFollowsItsLoop := by
  intro s rest hs hsched s'
  obtain ⟨u, hu, hstep⟩ := step_service hs (nextEvent_listed hsched)
  refine ⟨fun hp => ?_, fun d hp => ?_, fun hp => ?_, fun hp => ?_⟩
  · rw [serviceInstr_top hp] at hu
    obtain ⟨q, v, -, rfl⟩ := execGet_next hu
    refine ⟨_, v, hu, rfl, ?_⟩
    rw [hstep, State.respond_resps, serviceNext_get hp]
    cases v <;> rfl
  · rw [hp] at hu hstep
    exact ⟨u, hu, hstep⟩
  · rw [hp] at hu hstep
    refine ⟨u, hu, ?_⟩
    rw [hstep, execTestclr_next hu, State.respond_resps, serviceNext_testclr]
    rfl
  · rw [hp] at hu hstep
    exact ⟨u, hu, hstep⟩

/-! ### SERVICE with the producer quiet -/

/-- A listed `service` event is performed, and the rest of the list is still to come. -/
theorem step_listed_service {s : State} {rest : List Event} (hs : Safe s) (hsched : s.sched = .service :: rest) :
    ∃ t, step s = .next t ∧ Safe t ∧ ServiceMove s t ∧ t.sched = rest := by
  obtain ⟨t, ht, hmove, -, hrest, -⟩ := step_service_move hs (nextEvent_listed hsched)
  exact ⟨t, ht, everyStepKeepsTheInvariants s t hs ht, hmove, hrest⟩

theorem State.queue_congr {s t : State} (hc : t.cfg = s.cfg) (hf : t.fifo = s.fifo) : t.queue = s.queue := by
  rw [State.queue_eq, State.queue_eq, hc, hf]

/-- At the top of the loop with no flag latched, two operations per buffered value and two more end SERVICE. -/
theorem service_drains {q : List Word} {s : State} (hs : Safe s) (hp : s.svc = .idle ∨ s.svc = .loop)
    (hf : s.fifo.full = false) (hq : s.queue = q) (hsched : s.sched = List.replicate (2 * q.length + 2) .service) :
    ∃ t, Host.Core.run Sys2Proof.core (2 * q.length + 2) s = .next t ∧ t.svc = .idle ∧ t.queue = [] ∧ t.sched = [] ∧
      t.fifo.full = false ∧ t.dbg.dbg1 = s.dbg.dbg1 + BitVec.ofNat 32 q.length := by
  induction q generalizing s with
  | nil =>
    obtain ⟨s1, h1, hs1, hm1, hr1⟩ := step_listed_service hs hsched
    obtain ⟨t, h2, -, hm2, hr2⟩ := step_listed_service hs1 hr1
    obtain ⟨hfifo1, hsvc1, hdec1⟩ := hm1.of_no_value hp (.inl hq)
    obtain ⟨hq2, hf2, hsvc2, hdec2⟩ := hm2.of_testclr hsvc1
    refine ⟨t, ?_, ?_, ?_, hr2, hf2, ?_⟩
    · exact (run_succ Sys2Proof.core h1).trans (run_succ Sys2Proof.core h2)
    · rw [hsvc2, hfifo1, hf]; rfl
    · rw [hq2, State.queue_congr hm1.cfg hfifo1, hq]
    · rw [hdec2.dbg1, hdec1.dbg1]; simp
  | cons d q ih =>
    have hlen : 2 * (d :: q).length + 2 = 2 * q.length + 2 + 1 + 1 := by rw [List.length_cons]; omega
    rw [hlen, List.replicate_succ] at hsched
    obtain ⟨s1, h1, hs1, hm1, hr1⟩ := step_listed_service hs hsched
    obtain ⟨s2, h2, hs2, hm2, hr2⟩ := step_listed_service hs1 hr1
    obtain ⟨hq1, hf1, hsvc1, -, hdec1⟩ := hm1.of_value hp hf hq
    obtain ⟨hfifo2, hsvc2, -, hdbg2⟩ := hm2.of_step hsvc1
    obtain ⟨t, ht, hsvc, hqueue, hrest, hfull, hdbg⟩ := ih hs2 (.inr hsvc2) (by rw [hfifo2, hf1])
      (by rw [State.queue_congr hm2.cfg hfifo2, hq1]) hr2
    refine ⟨t, ?_, hsvc, hqueue, hrest, hfull, ?_⟩
    · rw [hlen]
      exact (run_succ Sys2Proof.core h1).trans ((run_succ Sys2Proof.core h2).trans ht)
    · rw [hdbg, hdbg2, hdec1.dbg1, List.length_cons, Nat.add_comm, BitVec.ofNat_add, BitVec.add_assoc]
      rfl

/-- Settles O49: the values are drained; with the flag latched GET is empty, TESTCLR returns 1 and OVFRESET follows. -/
theorem serviceEndsWhenTheProducerIsQuiet : Obligations.ServiceEndsWhenTheProducerIsQuiet := by
  intro s hs hp
  refine ⟨fun hf => service_drains (s := { s with sched := _ }) hs (.inl hp) hf rfl rfl, fun hf => ?_⟩
  obtain ⟨s1, h1, hs1, hm1, hr1⟩ :=
    step_listed_service (s := { s with sched := List.replicate 3 .service }) hs rfl
  obtain ⟨s2, h2, hs2, hm2, hr2⟩ := step_listed_service hs1 hr1
  obtain ⟨t, h3, -, hm3, hr3⟩ := step_listed_service hs2 hr2
  obtain ⟨hfifo1, hsvc1, hdec1⟩ := hm1.of_no_value (.inl hp) (.inr hf)
  obtain ⟨hq2, hf2, hsvc2, hdec2⟩ := hm2.of_testclr hsvc1
  rw [hfifo1, if_pos (show s.fifo.full = true from hf)] at hsvc2
  obtain ⟨hfifo3, hsvc3, hcls3, hframer3, hout3, -⟩ := hm3.of_ovfreset hsvc2
  refine ⟨t, ?_, hsvc3, ?_, hr3, by rw [hfifo3, hf2], hcls3, ?_, ?_⟩
  · exact (run_succ Sys2Proof.core h1).trans ((run_succ Sys2Proof.core h2).trans (run_succ Sys2Proof.core h3))
  · rw [State.queue_congr hm3.cfg hfifo3, hq2, State.queue_congr hm1.cfg hfifo1]; rfl
  · rw [hframer3, hm2.cfg, hm1.cfg]
  · rw [hout3, hdec2.out, hdec1.out]

/-! ### The producer's operations -/

/-- An operation of the producer changes nothing that decoding reads or leaves, nor the consumer's place, nor the
responses (10_state.md R35). -/
theorem exec_producer {i : Instr} {s t : State} (hi : i.agent = .producer) (h : exec i s = .next t) :
    SameDecoding s t ∧ t.svc = s.svc ∧ t.resps = s.resps ∧ t.sched = s.sched ∧ t.later = s.later := by
  have hw := exec_writesOnly h
  cases i with
  | add d => rw [show t = _ from hw]; exact ⟨⟨rfl, rfl, rfl, rfl, rfl⟩, rfl, rfl, rfl, rfl⟩
  | edge u => rw [show t = _ from hw]; exact ⟨⟨rfl, rfl, rfl, rfl, rfl⟩, rfl, rfl, rfl, rfl⟩
  | _ => cases hi

/-- A well-formed command of the producer that comes next is performed. -/
theorem step_producer {i : Instr} {s s' : State} (hs : Safe s) (hi : i.agent = .producer)
    (hw : i.wellFormed s.cfg = true) (hn : nextEvent s = some (.command .producer (encode i), s')) :
    step s = exec i s' := by
  rw [step_of_command hs.legal hs.valid hn, ← hi, acceptCommand_ok (decode_encode hw)]

/-- A store without a collision appends its value (40_fifo.md R100). -/
theorem exec_appends {i : Instr} {s t : State} {v : Word} (h : exec i s = .next t) (hc : s.cfg.Legal)
    (hv : s.Valid) (hs : storedValue i s = some v) (hn : nextSlot s.cfg.rbSlots s.fifo.wr ≠ s.fifo.rd) :
    t.queue = s.queue ++ [v] ∧ t.fifo.full = s.fifo.full := by
  obtain ⟨hadd, hfits⟩ := exec_stores h hs
  obtain ⟨-, ⟨-, hvals, hf⟩ | ⟨he, -⟩⟩ := hv.fifoOk.add (hfits hc.wT_le) hadd
  · exact ⟨by rw [State.queue_eq, exec_cfg h, hvals, State.queue_eq], hf⟩
  · exact absurd he hn

/-- The first edge leaves the buffer. -/
theorem exec_edge_keeps_fifo {u : Word} {s t : State} (h : exec (.edge u) s = .next t) (hv : s.front.valid = false) :
    t.fifo = s.fifo := by
  obtain ⟨-, ⟨-, rfl⟩ | ⟨hv', -⟩⟩ := execEdge_next h
  · rfl
  · rw [hv] at hv'; cases hv'

/-- A move of SERVICE classifies the oldest delta of the backlog, or keeps the backlog (43_control.md R177). -/
theorem ServiceMove.backlog {s t : State} (h : ServiceMove s t) :
    (∃ d, s.svc = .step d ∧ s.backlog = d :: t.backlog) ∨ ((∀ d, s.svc ≠ .step d) ∧ t.backlog = s.backlog) := by
  have hcfg := h.cfg
  cases h with
  | took d hp _ hq _ hsvc =>
    refine .inr ⟨fun e he => by simp [he] at hp, ?_⟩
    rw [State.backlog, State.backlog, hsvc, hq]
    obtain hp | hp := hp <;> rw [hp] <;> rfl
  | empty hp _ hfifo hsvc =>
    refine .inr ⟨fun e he => by simp [he] at hp, ?_⟩
    rw [State.backlog, State.backlog, hsvc, State.queue_congr hcfg hfifo]
    obtain hp | hp := hp <;> rw [hp] <;> rfl
  | classified d hp hfifo hsvc =>
    refine .inl ⟨d, hp, ?_⟩
    rw [State.backlog, State.backlog, hsvc, hp, State.queue_congr hcfg hfifo]
    rfl
  | tested hp hq _ hsvc =>
    refine .inr ⟨fun e he => by simp [he] at hp, ?_⟩
    rw [State.backlog, State.backlog, hsvc, hp, hq]
    split <;> rfl
  | recovered hp _ hfifo hsvc =>
    refine .inr ⟨fun e he => by simp [he] at hp, ?_⟩
    rw [State.backlog, State.backlog, hsvc, hp, State.queue_congr hcfg hfifo]
    rfl

/-- An edge that does not overflow puts its delta, if it has one, behind the backlog (43_control.md R177). -/
theorem exec_edge_backlog {u : Word} {s t : State} (h : exec (.edge u) s = .next t) (hc : s.cfg.Legal)
    (hv : s.Valid) :
    (s.front.valid = false → t.backlog = s.backlog ∧ t.fifo.full = s.fifo.full) ∧
    (s.front.valid = true → nextSlot s.cfg.rbSlots s.fifo.wr ≠ s.fifo.rd →
      t.backlog = s.backlog ++ [timeDelta s.cfg u s.front.prev] ∧ t.fifo.full = s.fifo.full) := by
  have hsvc := exec_svc h
  refine ⟨fun hf => ?_, fun hf hn => ?_⟩
  · have hfifo := exec_edge_keeps_fifo h hf
    exact ⟨by rw [State.backlog, State.backlog, hsvc, State.queue_congr (exec_cfg h) hfifo], by rw [hfifo]⟩
  · obtain ⟨hq, hfull⟩ := exec_appends h hc hv (storedValue_edge hf u) hn
    exact ⟨by rw [State.backlog, State.backlog, hsvc, hq, List.append_assoc], hfull⟩

/-- Settles O50, from what SERVICE's moves and an edge do to the backlog. -/
theorem serviceClassifiesDeltasInOrder : Obligations.ServiceClassifiesDeltasInOrder := by
  intro s t hs ht
  have edge {u : Word} {rest : List Event} (hsched : s.sched = edgeEvent u :: rest) (hu : Fits s.cfg.wT u) :
      exec (.edge u) (s.setSched rest) = .next t := by
    rw [← step_producer (i := .edge u) hs rfl (decide_eq_true hu) (nextEvent_listed hsched), ht]
  refine ⟨fun d rest hsched hp => ?_, fun rest hsched hp => ?_, fun u rest hsched hu hf => ?_,
    fun u rest hsched hu hf hn => ?_⟩
  · obtain ⟨t', ht', -, hmove, -⟩ := step_listed_service hs hsched
    rw [ht] at ht'
    cases ht'
    obtain ⟨v, hv, hstep⟩ := step_service hs (nextEvent_listed hsched)
    rw [ht] at hstep
    cases hstep
    rw [hp] at hv
    obtain ⟨e, he, hback⟩ | ⟨hne, -⟩ := hmove.backlog
    · rw [hp] at he
      cases he
      refine ⟨hback, ?_⟩
      have hsvc : v.svc = s.svc := exec_svc (i := .step d) (s := s.setSched rest) hv
      rw [show exec (.step d) { s with sched := rest } = _ from hv, ← hsvc]
      rfl
    · exact absurd hp (hne d)
  · obtain ⟨t', ht', -, hmove, -⟩ := step_listed_service hs hsched
    rw [ht] at ht'
    cases ht'
    obtain ⟨d, hd, -⟩ | ⟨-, hback⟩ := hmove.backlog
    · exact absurd hd (hp d)
    · exact hback
  · exact ((exec_edge_backlog (edge hsched hu) hs.legal hs.valid).1 hf).1
  · exact ((exec_edge_backlog (edge hsched hu) hs.legal hs.valid).2 hf hn).1

/-! ### Recovery before classifying -/

/-- Where the consumer stands when `n` operations of SERVICE lie between it and the end of a recovery, the flag being
latched until TESTCLR. -/
def RecoveryPoint (n : Nat) (s : State) : Prop :=
  match n with
  | 0 => s.svc = .idle ∧ s.cls = .awaitFirstHalf ∧ s.framer = Framer.initial s.cfg
  | 1 => s.svc = .ovfreset
  | 2 => s.svc = .testclr ∧ s.fifo.full = true
  | 3 => (s.svc = .idle ∨ s.svc = .loop) ∧ s.fifo.full = true
  | _ => False

/-- The recovery of `s₀`'s overflow has `n` operations of SERVICE to go, and nothing has been classified. -/
structure Recovering (s₀ : State) (n : Nat) (s : State) : Prop where
  point : RecoveryPoint n s
  cfg : s.cfg = s₀.cfg
  out : s.out = s₀.out
  dbg1 : s.dbg.dbg1 = s₀.dbg.dbg1

/-- The producer's operations keep the point of a recovery: they never clear the flag. -/
theorem Recovering.producer {s₀ s t : State} {n : Nat} {i : Instr} (h : Recovering s₀ n s)
    (hi : i.agent = .producer) (ht : exec i s = .next t) : Recovering s₀ n t := by
  obtain ⟨hdec, hsvc, -⟩ := exec_producer hi ht
  have hfull : s.fifo.full = true → t.fifo.full = true := by
    intro hf
    obtain ⟨-, hf'⟩ | ⟨rfl | rfl, -⟩ | ⟨-, -, hf'⟩ := exec_full_cases ht
    · rw [hf', hf, Bool.true_or]
    · cases hi
    · cases hi
    · rw [hf', hf]
  refine ⟨?_, hdec.cfg.trans h.cfg, hdec.out.trans h.out, hdec.dbg1.trans h.dbg1⟩
  have hp := h.point
  unfold RecoveryPoint at hp ⊢
  split at hp
  · rw [hsvc, hdec.cls, hdec.framer, hdec.cfg]; exact hp
  · rw [hsvc]; exact hp
  · rw [hsvc]; exact hp.imp id hfull
  · rw [hsvc]; exact hp.imp id hfull
  · exact hp

/-- An operation of SERVICE brings a recovery one point further. -/
theorem Recovering.service {s₀ s t : State} {n : Nat} (h : Recovering s₀ (n + 1) s) (hm : ServiceMove s t) :
    Recovering s₀ n t := by
  obtain ⟨hp, hcfg, hout, hdbg⟩ := h
  match n, hp with
  | 0, hp =>
    obtain ⟨-, hsvc, hcls, hframer, ho, hd⟩ := hm.of_ovfreset hp
    exact ⟨⟨hsvc, hcls, by rw [hframer, hm.cfg]⟩, hm.cfg.trans hcfg, ho.trans hout, by rw [hd, hdbg]⟩
  | 1, hp =>
    obtain ⟨hsvc, hf⟩ := hp
    obtain ⟨-, -, hsvc', hdec⟩ := hm.of_testclr hsvc
    rw [if_pos hf] at hsvc'
    exact ⟨hsvc', hm.cfg.trans hcfg, hdec.out.trans hout, hdec.dbg1.trans hdbg⟩
  | 2, hp =>
    obtain ⟨htop, hf⟩ := hp
    obtain ⟨hfifo, hsvc', hdec⟩ := hm.of_no_value htop (.inr hf)
    exact ⟨⟨hsvc', by rw [hfifo, hf]⟩, hm.cfg.trans hcfg, hdec.out.trans hout, hdec.dbg1.trans hdbg⟩

/-- A run of the producer's commands and `n` operations of SERVICE ends a recovery that has `n` to go. -/
theorem Recovering.run {s₀ : State} {es : List Event} {n : Nat} {s t : State} (h : Recovering s₀ n s) (hs : Safe s)
    (hes : ∀ e ∈ es, e = .service ∨ ∃ i : Instr, i.agent = .producer ∧ i.wellFormed s₀.cfg = true ∧
      e = .command .producer (encode i))
    (hn : es.count .service = n) (hsched : s.sched = es)
    (ht : Host.Core.run Sys2Proof.core es.length s = .next t) : Recovering s₀ 0 t := by
  induction es generalizing n s with
  | nil =>
    cases ht
    rw [List.count_nil] at hn
    exact hn ▸ h
  | cons e es ih =>
    obtain ⟨s', hs', ht'⟩ := run_succ_next Sys2Proof.core ht
    have hsafe := everyStepKeepsTheInvariants s s' hs hs'
    have hes' := fun x hx => hes x (List.mem_cons_of_mem e hx)
    obtain rfl | ⟨i, hi, hw, rfl⟩ := hes e (List.mem_cons_self ..)
    · obtain ⟨s1, h1, -, hm, hrest⟩ := step_listed_service hs hsched
      rw [show step s = _ from hs'] at h1
      cases h1
      rw [List.count_cons_self] at hn
      exact ih ((hn ▸ h).service hm) hsafe hes' rfl hrest ht'
    · have hexec := step_producer hs hi (h.cfg ▸ hw) (nextEvent_listed hsched)
      rw [show step s = _ from hs'] at hexec
      rw [List.count_cons_of_ne (by simp)] at hn
      have hmoved : Recovering s₀ n (s.setSched es) := ⟨h.point, h.cfg, h.out, h.dbg1⟩
      exact ih (hmoved.producer hi hexec.symm) hsafe hes' hn (exec_sched hexec.symm) ht'

/-- Settles O51: three operations of SERVICE end the recovery, whatever the producer does in between. -/
theorem overflowIsRecoveredBeforeClassifying : Obligations.OverflowIsRecoveredBeforeClassifying := by
  intro s t es hs hp hf hes hn ht
  have hstart : Recovering s 3 { s with sched := es } := ⟨⟨hp, hf⟩, rfl, rfl, rfl⟩
  have hes' : ∀ e ∈ es, e = .service ∨ ∃ i : Instr, i.agent = .producer ∧ i.wellFormed s.cfg = true ∧
      e = .command .producer (encode i) := by
    intro e he
    refine (hes e he).imp id ?_
    rintro ⟨i, ⟨d, rfl⟩ | ⟨u, rfl⟩, hw, rfl⟩
    · exact ⟨_, rfl, hw, rfl⟩
    · exact ⟨_, rfl, hw, rfl⟩
  obtain ⟨⟨hsvc, hcls, hframer⟩, hcfg, hout, hdbg⟩ := hstart.run hs hes' hn rfl ht
  exact ⟨hsvc, hcls, hcfg ▸ hframer, hdbg, hout⟩

end Sys2Proof.Machine
end

section
/-! SUPPORT. The whole pipeline, and a SERVICE that does not end (43_control.md R175, R177). -/

namespace Sys2Proof.Machine

/-! ### The pipeline -/

/-- From `s`, the deltas `ds` still to be classified lead to the same decoding as `ds'` do from `s'`. -/
def Continues (s : State) (ds : List Word) (s' : State) (ds' : List Word) : Prop :=
  ∀ u, execAll (ds'.map .step) s' = .next u → ∃ v, execAll (ds.map .step) s = .next v ∧ SameDecoding u v

theorem SameDecoding.continues {s s' : State} (h : SameDecoding s s') (ds : List Word) : Continues s ds s' ds :=
  fun _ hu => h.symm.execAll_steps hu

/-- STEPping the oldest delta goes on with the others. -/
theorem continues_cons {s u s' : State} {d : Word} (hu : exec (.step d) s = .next u) (h : SameDecoding u s')
    (ds : List Word) : Continues s (d :: ds) s' ds := by
  intro v hv
  obtain ⟨w, hw, hsame⟩ := h.symm.execAll_steps hv
  exact ⟨w, by rw [List.map_cons, execAll_cons hu, hw], hsame⟩

theorem Continues.trans {s s' t : State} {ds ds' ds'' : List Word} (h : Continues s ds s' ds')
    (h' : Continues s' ds' t ds'') : Continues s ds t ds'' := by
  intro u hu
  obtain ⟨v, hv, hsame⟩ := h' u hu
  obtain ⟨w, hw, hsame'⟩ := h v hv
  exact ⟨w, hw, hsame.trans hsame'⟩

/-- The deltas still to be classified when the producer's edges at the times `us` are still to come (43_control.md
R177). -/
def State.pending (s : State) (us : List Word) : List Word := s.backlog ++ edgeDeltas s.cfg s.front us

/-- No overflow shows: the flag is clear and no TESTCLR among these responses returned 1. -/
def Unlatched (s : State) (rs : List Response) : Prop := s.fifo.full = false ∧ Response.testclr true ∉ rs

/-- A move of SERVICE returns responses; where no overflow shows after it, none was latched before it, and it carries
the deltas to be classified on. -/
theorem ServiceMove.carries {s t : State} (h : ServiceMove s t) (hfront : t.front = s.front) :
    ∃ rs, t.resps = s.resps ++ rs ∧ (Unlatched t rs → s.fifo.full = false ∧
      (s.svc ≠ .ovfreset → t.svc ≠ .ovfreset ∧ ∀ us, Continues s (s.pending us) t (t.pending us))) := by
  have keep (hdec : SameDecoding s t) (hback : t.backlog = s.backlog) (us : List Word) :
      Continues s (s.pending us) t (t.pending us) := by
    rw [State.pending, State.pending, hback, hfront, h.cfg]
    exact hdec.continues _
  obtain ⟨d, hp, hback⟩ | ⟨hp, hback⟩ := h.backlog
  · obtain ⟨hfifo, hsvc, hresps, -⟩ := h.of_step hp
    obtain ⟨u, hu, hdec⟩ := h.decoding_of_step hp
    refine ⟨[], by rw [hresps, List.append_nil], fun hn => ⟨hfifo ▸ hn.1, fun _ => ⟨by simp [hsvc], fun us => ?_⟩⟩⟩
    rw [State.pending, State.pending, hfront, h.cfg, hback, List.cons_append]
    exact continues_cons hu hdec _
  · cases h with
    | took d _ hf _ _ hsvc hresps hdec =>
      exact ⟨_, hresps, fun _ => ⟨hf, fun _ => ⟨by simp [hsvc], keep hdec hback⟩⟩⟩
    | empty _ _ hfifo hsvc hresps hdec =>
      exact ⟨_, hresps, fun hn => ⟨hfifo ▸ hn.1, fun _ => ⟨by simp [hsvc], keep hdec hback⟩⟩⟩
    | classified d hp' => exact absurd hp' (hp d)
    | tested _ _ _ hsvc hresps hdec =>
      refine ⟨_, hresps, fun hn => ?_⟩
      have hf : s.fifo.full = false := by simpa using hn.2
      exact ⟨hf, fun _ => ⟨by simp [hsvc, hf], keep hdec hback⟩⟩
    | recovered hp' _ hfifo _ hresps =>
      exact ⟨[], by rw [hresps, List.append_nil], fun hn => ⟨hfifo ▸ hn.1, fun hne => absurd hp' hne⟩⟩

/-- An edge returns no response; where no overflow shows after it, none was latched before it, and its delta is to be
classified after the others. -/
theorem exec_edge_carries {u : Word} {s t : State} (h : exec (.edge u) s = .next t) (hc : s.cfg.Legal)
    (hv : s.Valid) (hf : t.fifo.full = false) :
    s.fifo.full = false ∧ ∀ us, Continues s (s.pending (u :: us)) t (t.pending us) := by
  obtain ⟨hdec, -⟩ := exec_producer rfl h
  have hfront : t.front = { prev := u, valid := true } := by rw [show t = _ from exec_writesOnly h]
  obtain ⟨hfirst, hlater⟩ := exec_edge_backlog h hc hv
  unfold State.pending
  rw [hfront, hdec.cfg]
  cases hvalid : s.front.valid with
  | false =>
    obtain ⟨hback, hfull⟩ := hfirst hvalid
    refine ⟨hfull ▸ hf, fun us => ?_⟩
    rw [edgeDeltas, if_neg (by simp [hvalid]), hback]
    exact hdec.continues _
  | true =>
    have hn : nextSlot s.cfg.rbSlots s.fifo.wr ≠ s.fifo.rd := by
      intro he
      have hover := (exec_overflows h hc hv.fifoOk ((performsAdd_edge_iff u s).2 hvalid)
        ((Fifo.collides_iff _ _).2 he)).1
      rw [hf] at hover
      cases hover
    obtain ⟨hback, hfull⟩ := hlater hvalid hn
    refine ⟨hfull ▸ hf, fun us => ?_⟩
    rw [edgeDeltas, if_pos hvalid, hback, List.append_assoc]
    exact hdec.continues _

/-- A run of edges and SERVICE that shows no overflow and leaves no backlog has decoded the backlog and the edges'
deltas in order. -/
theorem pipeline_run {es : List Event} {us : List Word} {s t : State} (hs : Safe s)
    (hu : ∀ u ∈ us, Fits s.cfg.wT u) (hes : es.filter (fun e => e ≠ .service) = us.map edgeEvent)
    (hsched : s.sched = es) (ht : Host.Core.run Sys2Proof.core es.length s = .next t) :
    ∃ rs, t.resps = s.resps ++ rs ∧ (Unlatched t rs → s.fifo.full = false ∧
      (t.backlog = [] → s.svc ≠ .ovfreset →
        ∃ u, execAll ((s.pending us).map .step) s = .next u ∧ SameDecoding u t)) := by
  induction es generalizing us s with
  | nil =>
    cases ht
    obtain rfl : us = [] := by simpa using hes
    refine ⟨[], by rw [List.append_nil], fun hn => ⟨hn.1, fun hb _ => ⟨t, ?_, .refl t⟩⟩⟩
    rw [State.pending, hb]
    rfl
  | cons e es ih =>
    obtain ⟨s', hs', ht'⟩ := run_succ_next Sys2Proof.core ht
    replace hs' : step s = .next s' := hs'
    have hsafe := everyStepKeepsTheInvariants s s' hs hs'
    cases e with
    | service =>
      obtain ⟨s1, h1, hm, hfront, hrest, -⟩ := step_service_move hs (nextEvent_listed hsched)
      rw [hs'] at h1
      cases h1
      obtain ⟨rs, hrs, hrun⟩ := ih (us := us) hsafe (hm.cfg ▸ hu) (by simpa using hes) hrest ht'
      obtain ⟨rs', hrs', hmove⟩ := hm.carries hfront
      refine ⟨rs' ++ rs, by rw [hrs, hrs', List.append_assoc], fun hn => ?_⟩
      obtain ⟨hf, hdecode⟩ := hrun ⟨hn.1, fun hmem => hn.2 (List.mem_append_right _ hmem)⟩
      obtain ⟨hf', hcont⟩ := hmove ⟨hf, fun hmem => hn.2 (List.mem_append_left _ hmem)⟩
      refine ⟨hf', fun hb hp => ?_⟩
      obtain ⟨hp', hcont⟩ := hcont hp
      obtain ⟨u, hu', hsame⟩ := hdecode hb hp'
      obtain ⟨v, hv, hsame'⟩ := hcont us u hu'
      exact ⟨v, hv, hsame'.symm.trans hsame⟩
    | command a w =>
      rw [List.filter_cons_of_pos (by simp)] at hes
      obtain ⟨u, us', rfl, he, hes'⟩ := List.map_eq_cons_iff.1 hes.symm
      rw [← he] at hsched
      have hw : Fits s.cfg.wT u := hu u (List.mem_cons_self ..)
      have hexec := step_producer (i := .edge u) hs rfl (decide_eq_true hw) (nextEvent_listed hsched)
      rw [hs'] at hexec
      obtain ⟨hdec, hsvc, hresps, hrest, -⟩ := exec_producer rfl hexec.symm
      obtain ⟨rs, hrs, hrun⟩ := ih (us := us') hsafe (hdec.cfg ▸ fun x hx => hu x (List.mem_cons_of_mem _ hx))
        hes'.symm hrest ht'
      refine ⟨rs, by rw [hrs, hresps]; rfl, fun hn => ?_⟩
      obtain ⟨hf, hdecode⟩ := hrun hn
      obtain ⟨hf', hcont⟩ := exec_edge_carries hexec.symm hs.legal hs.valid hf
      refine ⟨hf', fun hb hp => ?_⟩
      obtain ⟨v, hv, hsame⟩ := hdecode hb (by rw [hsvc]; exact hp)
      have hmoved : SameDecoding s (s.setSched es) := ⟨rfl, rfl, rfl, rfl, rfl⟩
      obtain ⟨w, hw, hsame'⟩ := (hmoved.continues _).trans (hcont us') v hv
      exact ⟨w, hw, hsame'.symm.trans hsame⟩

/-- Settles O52, from the run of the listed events. -/
theorem pipelineIsTheDeltasInOrder : Obligations.PipelineIsTheDeltasInOrder := by
  intro s t us es hs hp hu hes ht hf hresps hb
  obtain ⟨rs, hrs, hrun⟩ := pipeline_run (s := { s with sched := es }) hs hu hes rfl ht
  have hn : Unlatched t rs := ⟨hf, by rwa [hrs, List.drop_left] at hresps⟩
  obtain ⟨v, hv, hsame⟩ := (hrun hn).2 hb (by simp [hp])
  have hmoved : SameDecoding { s with sched := es } s := ⟨rfl, rfl, rfl, rfl, rfl⟩
  obtain ⟨u, hu', hsame'⟩ := hmoved.execAll_steps hv
  have hpending : State.pending { s with sched := es } us = s.queue ++ edgeDeltas s.cfg s.front us := by
    rw [State.pending, State.backlog, show State.svc { s with sched := es } = .idle from hp]
    rfl
  rw [hpending] at hu'
  have htu := hsame.symm.trans hsame'
  exact ⟨u, hu', htu.out.symm, htu.cls.symm, htu.framer.symm, htu.dbg1.symm⟩

/-! ### A SERVICE that does not end -/

/-- The consumer is at the top of SERVICE, nothing is buffered, and the producer's ADD of `d` and two operations of
SERVICE are to come, over and over. -/
structure AtTop (d : Word) (s : State) : Prop where
  safe : Safe s
  top : s.svc = .idle ∨ s.svc = .loop
  unlatched : s.fifo.full = false
  queue : s.queue = []
  sched : s.sched = []
  later : s.later = .again [.command .producer (encode (.add d)), .service, .service]
  fits : Fits s.cfg.wT d

/-- Once around: ADD puts the value in, GET takes it out, and STEP classifies it. -/
theorem AtTop.cycle {d : Word} {s : State} (h : AtTop d s) :
    ∃ s1 s2 s3, step s = .next s1 ∧ step s1 = .next s2 ∧ step s2 = .next s3 ∧
      (s1.svc = s.svc ∧ s1.resps = s.resps ∧ s1.dbg.dbg1 = s.dbg.dbg1) ∧
      (s2.svc = .step d ∧ s2.resps = s.resps ++ [.get (some d)] ∧ s2.dbg.dbg1 = s.dbg.dbg1) ∧
      (AtTop d s3 ∧ s3.svc = .loop ∧ s3.resps = s.resps ++ [.get (some d)] ∧ s3.dbg.dbg1 = s.dbg.dbg1 + 1) := by
  obtain ⟨hs, hp, hf, hq, hsched, hlater, hd⟩ := h
  have hnext : nextEvent s = some (.command .producer (encode (.add d)), s.setSched [.service, .service]) := by
    simp only [nextEvent, hsched, hlater]
  have hadd := step_producer (i := .add d) hs rfl (decide_eq_true hd) hnext
  have hheld := holds_of_valid (s := s.setSched [.service, .service]) hs.legal hs.valid
  rw [show (s.setSched [.service, .service]).queue = [] from hq,
    show (s.setSched [.service, .service]).fifo.full = false from hf] at hheld
  have hcap : 0 < s.cfg.rbCap := Nat.sub_pos_of_lt hs.legal.two_le_rbSlots
  obtain ⟨s1, h1, hheld1⟩ := hheld.add hd hcap
  rw [h1] at hadd
  have hs1 := everyStepKeepsTheInvariants s s1 hs hadd
  obtain ⟨hdec1, hsvc1, hresps1, hsched1, hlater1⟩ := exec_producer rfl h1
  have hlisted1 : nextEvent s1 = some (.service, s1.setSched [.service]) := nextEvent_listed hsched1
  obtain ⟨s2, h2, hm2, -, hsched2, hlater2⟩ := step_service_move hs1 hlisted1
  have hs2 := everyStepKeepsTheInvariants s1 s2 hs1 h2
  have hp1 : s1.svc = .idle ∨ s1.svc = .loop := by rw [hsvc1]; exact hp
  obtain ⟨hq2, hf2, hsvc2, hresps2, hdec2⟩ := hm2.of_value hp1 hheld1.full hheld1.queue
  have hlisted2 : nextEvent s2 = some (.service, s2.setSched []) := nextEvent_listed hsched2
  obtain ⟨s3, h3, hm3, -, hsched3, hlater3⟩ := step_service_move hs2 hlisted2
  obtain ⟨hfifo3, hsvc3, hresps3, hdbg3⟩ := hm3.of_step hsvc2
  have hcfg3 : s3.cfg = s.cfg := hm3.cfg.trans (hm2.cfg.trans hdec1.cfg)
  refine ⟨s1, s2, s3, hadd, h2, h3, ⟨hsvc1, hresps1, hdec1.dbg1⟩,
    ⟨hsvc2, by rw [hresps2, hresps1]; rfl, by rw [hdec2.dbg1, hdec1.dbg1]; rfl⟩, ⟨?_, hsvc3, ?_, ?_⟩⟩
  · exact {
      safe := everyStepKeepsTheInvariants s2 s3 hs2 h3
      top := .inr hsvc3
      unlatched := by rw [hfifo3, hf2]
      queue := by rw [State.queue_congr hm3.cfg hfifo3, hq2]
      sched := hsched3
      later := by rw [hlater3, State.setSched_later, hlater2, State.setSched_later, hlater1]; exact hlater
      fits := hcfg3 ▸ hd }
  · rw [hresps3, hresps2, hresps1]; rfl
  · rw [hdbg3, hdec2.dbg1, hdec1.dbg1]; rfl

/-- Any number of times around. -/
theorem AtTop.cycles {d : Word} {s : State} (h : AtTop d s) (m : Nat) :
    ∃ t, Host.Core.run Sys2Proof.core (3 * m) s = .next t ∧ AtTop d t ∧ (0 < m → t.svc = .loop) ∧
      t.resps = s.resps ++ List.replicate m (.get (some d)) ∧ t.dbg.dbg1 = s.dbg.dbg1 + BitVec.ofNat 32 m := by
  induction m generalizing s with
  | zero => exact ⟨s, rfl, h, nofun, by simp, by simp⟩
  | succ m ih =>
    obtain ⟨s1, s2, s3, h1, h2, h3, -, -, h', hsvc, hresps, hdbg⟩ := h.cycle
    obtain ⟨t, ht, hat, hloop, hresps', hdbg'⟩ := ih h'
    refine ⟨t, ?_, hat, fun _ => ?_, ?_, ?_⟩
    · rw [Nat.mul_succ]
      exact (run_succ Sys2Proof.core h1).trans ((run_succ Sys2Proof.core h2).trans
        ((run_succ Sys2Proof.core h3).trans ht))
    · cases m with
      | zero => cases ht; exact hsvc
      | succ m => exact hloop (Nat.succ_pos m)
    · rw [hresps', hresps, List.append_assoc, List.replicate_succ]
      rfl
    · rw [hdbg', hdbg, Nat.add_comm, BitVec.ofNat_add, BitVec.add_assoc]
      rfl

/-- Settles O55: `k + 2` steps are some times around, and no, one or two steps more. -/
theorem serviceNeedNotEnd : Obligations.ServiceNeedNotEnd := by
  intro s d k hs hp hf hq hd
  have h : AtTop d { s with
      sched := [], later := .again [.command .producer (encode (.add d)), .service, .service] } :=
    ⟨hs, .inl hp, hf, hq, rfl, rfl, hd⟩
  obtain ⟨t, ht, hat, hloop, hresps, hdbg⟩ := h.cycles ((k + 2) / 3)
  obtain ⟨s1, s2, -, h1, h2, -, ⟨hsvc1, hresps1, hdbg1⟩, ⟨hsvc2, hresps2, hdbg2⟩, -⟩ := hat.cycle
  have hrun := run_add Sys2Proof.core ht ((k + 2) % 3)
  rw [Nat.div_add_mod] at hrun
  have hlt : (k + 2) % 3 < 3 := Nat.mod_lt _ (by omega)
  obtain hr | hr | hr : (k + 2) % 3 = 0 ∨ (k + 2) % 3 = 1 ∨ (k + 2) % 3 = 2 := by omega
  · have hm : k / 3 + 1 = (k + 2) / 3 := by omega
    rw [hr] at hrun
    exact ⟨t, hrun, .inl (hloop (by omega)), by rw [hresps, hm], hdbg⟩
  · have hm : k / 3 + 1 = (k + 2) / 3 := by omega
    rw [hr] at hrun
    refine ⟨s1, hrun.trans (run_succ Sys2Proof.core h1), .inl (hsvc1.trans (hloop (by omega))), ?_, hdbg1.trans hdbg⟩
    rw [hresps1, hresps, hm]
  · have hm : k / 3 + 1 = (k + 2) / 3 + 1 := by omega
    rw [hr] at hrun
    refine ⟨s2, hrun.trans ((run_succ Sys2Proof.core h1).trans (run_succ Sys2Proof.core h2)), .inr hsvc2, ?_,
      hdbg2.trans hdbg⟩
    rw [hresps2, hresps, hm, List.replicate_succ', List.append_assoc]

end Sys2Proof.Machine
end
